-- ==== Sys2Proof/Word.lean ====
section
/-! DEFINITION. The values of the block (00_scope.md R6, R8, R9): bits, nibbles, bytes, operation
words, exclusive-or sums, and the two kinds of operand that are neither numbers nor bits. -/

namespace Sys2Proof

/-- One element of GF(2): addition is exclusive or, multiplication is and (R8). -/
abbrev Bit := Bool

/-- A value of width 4 (R6, 30_encoding.md R53): a nibble or a syndrome index. -/
abbrev Nibble := BitVec 4

/-- A value of width 8 (R6): a byte, a codeword, or one storage unit. -/
abbrev Byte := BitVec 8

/-- The operation word `{sel[7:0], imm[7:0]}` (30_encoding.md R50). -/
abbrev OpWord := BitVec 16

/-- `XOR_{k=0}^{n-1} e(k)`; over an empty range it is 0 (R6). -/
def xorSum : Nat → (Nat → Bit) → Bit
  | 0, _ => false
  | n + 1, e => xorSum n e ^^ e n

/-- An entry of the error table (10_state.md R16, 30_encoding.md R56). -/
inductive Entry where
  /-- "no error" -/
  | noerr
  /-- "uncorrectable" -/
  | uncorr
  /-- "a bit position 0–7 to flip" -/
  | pos (p : Fin 8)
  deriving DecidableEq, Repr

/-- A matrix operand: one of the constant names `G`, `HT`, or a created instance named by its handle
(30_encoding.md R52, R62; log entry 2). -/
inductive MatRef where
  /-- the generator matrix, read-only -/
  | g
  /-- the parity-check transpose, read-only -/
  | ht
  /-- the matrix instance created `h`-th, counting from 0 -/
  | inst (h : Nat)
  deriving DecidableEq, Repr

end Sys2Proof
end

