-- ==== Sys2Proof/Config.lean ====
section
/-! DEFINITION. The model parameters of 00_scope.md R5 and the values the spec leaves open. -/

namespace Sys2Proof

/-- What the model does on a violated precondition (R5 `UNDEF_TREATMENT`, D11): "Never a value, never
a silent no-op". Log entry 6. -/
inductive UndefTreatment where
  /-- the default: the operation has no meaning -/
  | refuse
  /-- the machine stops with a fault -/
  | fault
  deriving DecidableEq, Repr

/-- The parameters of R5 that concern the block, fixed for one machine; the defaults are the spec's. -/
structure Config where
  /-- `ALLOC_CAN_FAIL` (R5, D9, U6): whether a creation may fail for lack of storage. -/
  allocCanFail : Bool := false
  /-- `UNDEF_TREATMENT` (R5, D11). -/
  undefTreatment : UndefTreatment := .refuse
  deriving DecidableEq, Repr

/-- FREE VALUE (U6, log entry 5): whether allocation number `n` fails, when `ALLOC_CAN_FAIL` is true. -/
opaque Config.freeAllocFails : Nat → Bool

/-! ### The host's, outside the block -/

/-- What the host's `total`, "the bytes processed", may count: the three readings that 44_host_stream.md
R120 lists (log entry 20). -/
inductive TotalReading where
  /-- "input bytes consumed, with ... a dropped trailing byte" -/
  | inputWithTrailing
  /-- "input bytes consumed, ... without a dropped trailing byte" -/
  | inputWithoutTrailing
  /-- "output bytes" -/
  | output
  deriving DecidableEq, Repr, Inhabited

/-- FREE VALUE (U15, N10, log entry 20): which reading of `total` the host has. -/
opaque Config.hostTotalReading : TotalReading

/-- The kinds of value a floating-point quantity can have (R121). Which numbers and which of the other
kinds the host's format has is not in the source (log entry 21). -/
inductive HostFloat where
  /-- a signed number, zero included -/
  | finite (negative : Bool) (magnitude : Rat)
  | infinite (negative : Bool)
  | nan
  deriving DecidableEq, Repr, Inhabited

/-- FREE VALUE (R121, log entry 21): what the host's format and rounding make of the quotient
`exact = uncorrectable / total`. It may depend on the counts themselves, as it does where a format
rounds them before it divides. -/
opaque Config.hostRoundedRate (uncorrectable total : Nat) (exact : Rat) : HostFloat

/-- FREE VALUE (R5 `HOST_RATE_AT_ZERO`, R121, D24): the rate when `total` is 0. -/
opaque Config.hostRateAtZero : HostFloat

end Sys2Proof
end

