-- ==== Sys2Proof/Syntax.lean ====
section
/-! DEFINITION. The 19 operations, one constructor per row of spec/opcode_table.json, each with
exactly the operands 30_encoding.md R51 gives it: its typed operands (R52), then its `imm` operand. -/

namespace Sys2Proof

/-- An operation of the block (00_scope.md R9, "operation"). A BitVector operand is the handle of a
created vector (log entry 2). -/
inductive Instr where
  /-- BV.CREATE `length` (40_bitvector.md R71) -/
  | bvCreate (length : Nat)
  /-- BV.SET `V, i` (R72) -/
  | bvSet (v i : Nat)
  /-- BV.CLR `V, i` (R73) -/
  | bvClr (v i : Nat)
  /-- BV.XOR `V, i, value` (R74); `value` is one bit (D22) -/
  | bvXor (v i : Nat) (value : Bit)
  /-- BV.GET `V, i` (R75) -/
  | bvGet (v i : Nat)
  /-- BM.CREATE `rows, cols` (41_bitmatrix.md R81) -/
  | bmCreate (rows cols : Nat)
  /-- BM.SET `M, r, c` (R82) -/
  | bmSet (m : MatRef) (r c : Nat)
  /-- BM.CLR `M, r, c` (R83) -/
  | bmClr (m : MatRef) (r c : Nat)
  /-- BM.GET `M, r, c` (R84) -/
  | bmGet (m : MatRef) (r c : Nat)
  /-- BM.FROMDATA `length, byte` (R85) -/
  | bmFromData (length : Nat) (byte : Byte)
  /-- BM.TODATA `M` (R86) -/
  | bmToData (m : MatRef)
  /-- BM.MUL `A, B` (R88) -/
  | bmMul (a b : MatRef)
  /-- ENCODE `nibble` (42_codec_encoder.md R96) -/
  | encode (n : Nibble)
  /-- DECODE `codeword` (43_decoder.md R105) -/
  | decode (w : Byte)
  /-- SYNDROME `codeword` (R100) -/
  | syndrome (w : Byte)
  /-- LOOKUP `idx` (R102) -/
  | lookup (idx : Nibble)
  /-- CORRECT `e, codeword` (R103) -/
  | correct (e : Entry) (w : Byte)
  /-- EXTRACT `codeword` (R104) -/
  | extract (w : Byte)
  /-- HAM.INIT (42_codec_encoder.md R95) -/
  | hamInit
  deriving DecidableEq, Repr

end Sys2Proof
end

