-- ==== Sys2Proof/WellFormed.lean ====
section
/-! DEFINITION. The preconditions of 60_exceptions.md R129 and 70_reset_and_hazards.md R149 that an
operation meets or misses by its operands alone, whatever the state. The ones that depend on an
instance (index below length, cell in shape, eight columns, matching shapes) are in Safety.lean. -/

namespace Sys2Proof

/-- Not one of the constants, which nothing may write (10_state.md R17; R149 (a)). -/
def MatRef.writable : MatRef → Bool
  | .g => false
  | .ht => false
  | .inst _ => true

/-- Static well-formedness: BM.FROMDATA asks for at most 8 columns (R85, U4), and BM.SET and BM.CLR
name no constant (R17, R149). -/
def Instr.wf : Instr → Bool
  | .bvCreate _ => true
  | .bvSet _ _ => true
  | .bvClr _ _ => true
  | .bvXor _ _ _ => true
  | .bvGet _ _ => true
  | .bmCreate _ _ => true
  | .bmSet m _ _ => m.writable
  | .bmClr m _ _ => m.writable
  | .bmGet _ _ _ => true
  | .bmFromData length _ => decide (length ≤ 8)
  | .bmToData _ => true
  | .bmMul _ _ => true
  | .encode _ => true
  | .decode _ => true
  | .syndrome _ => true
  | .lookup _ => true
  | .correct _ _ => true
  | .extract _ => true
  | .hamInit => true

end Sys2Proof
end

