-- ==== Sys2Proof/Decode.lean ====
section
/-! DEFINITION. The selector map (30_encoding.md R51), the decoder, total on all 65536 operation
words (R59), the ports' decoder (R26, R59), and the encoder. -/

namespace Sys2Proof

/-! ### Selectors -/

/-- The operations the selector map names (R51). -/
inductive Op where
  | bvCreate | bvSet | bvClr | bvXor | bvGet
  | bmCreate | bmSet | bmClr | bmGet | bmFromData | bmToData | bmMul
  | encode | decode | syndrome | lookup | correct | extract | hamInit
  deriving DecidableEq, Repr

/-- The `sel` column of the table of R51. -/
def Op.sel : Op → Byte
  | .bvCreate => 0x00
  | .bvSet => 0x01
  | .bvClr => 0x02
  | .bvXor => 0x03
  | .bvGet => 0x04
  | .bmCreate => 0x10
  | .bmSet => 0x11
  | .bmClr => 0x12
  | .bmGet => 0x13
  | .bmFromData => 0x14
  | .bmToData => 0x15
  | .bmMul => 0x16
  | .encode => 0x20
  | .decode => 0x21
  | .syndrome => 0x22
  | .lookup => 0x23
  | .correct => 0x24
  | .extract => 0x25
  | .hamInit => 0x2F

/-- The rows of the table of R51, in its order. -/
def Op.all : List Op :=
  [.bvCreate, .bvSet, .bvClr, .bvXor, .bvGet] ++
  [.bmCreate, .bmSet, .bmClr, .bmGet, .bmFromData, .bmToData, .bmMul] ++
  [.encode, .decode, .syndrome, .lookup, .correct, .extract, .hamInit]

/-- The row of R51 with this selector; none for a reserved one (R59). -/
def Op.ofSel (sel : Byte) : Option Op :=
  Op.all.find? fun op => op.sel == sel

/-! ### Fields and operands -/

/-- `opw[15:8]` (R50). -/
def OpWord.sel (w : OpWord) : Byte := w.extractLsb' 8 8

/-- `opw[7:0]` (R50). -/
def OpWord.imm (w : OpWord) : Byte := w.extractLsb' 0 8

/-- `imm[3:0]`, the nibble and the syndrome index (R51, R53). -/
def immNibble (imm : Byte) : Nibble := imm.extractLsb' 0 4

/-- `opw = {sel, imm}` (R50). -/
def OpWord.make (sel imm : Byte) : OpWord := sel ++ imm

/-- The code `{kind[1:0], pos[2:0]}` of an error-table entry (R56, D5). -/
def Entry.code : Entry → BitVec 5
  | .noerr => 0b00000
  | .uncorr => 0b10000
  | .pos p => (0b01 : BitVec 2) ++ BitVec.ofNat 3 p.val

/-- The entry a code stands for; none for the codes "never stored" (R56, R60). -/
def Entry.ofCode (code : BitVec 5) : Option Entry :=
  match code.extractLsb' 3 2, code.extractLsb' 0 3 with
  | 0b00, p => if p = 0 then some .noerr else none
  | 0b01, p => some (.pos p.toFin)
  | 0b10, p => if p = 0 then some .uncorr else none
  | _, _ => none

/-- The typed operands presented beside the word (R50, R52): inputs of the internal units. An
operation reads those that R51 gives it and ignores the others. -/
structure TypedOperands where
  length : Nat := 0
  rows : Nat := 0
  cols : Nat := 0
  i : Nat := 0
  r : Nat := 0
  c : Nat := 0
  /-- one bit (D22) -/
  value : Bit := false
  /-- handle of the vector `V` -/
  v : Nat := 0
  /-- the matrix `M` -/
  m : MatRef := .inst 0
  /-- the left factor `A` -/
  a : MatRef := .inst 0
  /-- the right factor `B` -/
  b : MatRef := .inst 0
  /-- the entry `e`, as its code (R56) -/
  e : BitVec 5 := 0
  deriving DecidableEq, Repr

/-- Every typed operand zero: the operands of a word that is presented alone (log entry 13). -/
def TypedOperands.zero : TypedOperands := {}

/-! ### Decoding -/

/-- Why the decoder gives a request no operation. -/
inductive Reject where
  /-- the selector is reserved (R59, U9) -/
  | reservedSelector (sel : Byte)
  /-- CORRECT's entry operand has a code outside the three kinds (R60, U10) -/
  | reservedEntryCode (code : BitVec 5)
  /-- a selector other than ENCODE's and DECODE's at the ports (R59) -/
  | notAPortOperation (sel : Byte)
  deriving DecidableEq, Repr

/-- An operation or the reason there is none. -/
inductive Decoded where
  | op (i : Instr)
  | reject (why : Reject)
  deriving DecidableEq, Repr

/-- The operation, where there is one. -/
def Decoded.instr? : Decoded → Option Instr
  | .op i => some i
  | .reject _ => none

/-- The operation of one row of R51, its operands taken from `imm` and from beside the word. -/
def decodeOp (op : Op) (imm : Byte) (x : TypedOperands) : Decoded :=
  match op with
  | .bvCreate => .op (.bvCreate x.length)
  | .bvSet => .op (.bvSet x.v x.i)
  | .bvClr => .op (.bvClr x.v x.i)
  | .bvXor => .op (.bvXor x.v x.i x.value)
  | .bvGet => .op (.bvGet x.v x.i)
  | .bmCreate => .op (.bmCreate x.rows x.cols)
  | .bmSet => .op (.bmSet x.m x.r x.c)
  | .bmClr => .op (.bmClr x.m x.r x.c)
  | .bmGet => .op (.bmGet x.m x.r x.c)
  | .bmFromData => .op (.bmFromData x.length imm)
  | .bmToData => .op (.bmToData x.m)
  | .bmMul => .op (.bmMul x.a x.b)
  | .encode => .op (.encode (immNibble imm))
  | .decode => .op (.decode imm)
  | .syndrome => .op (.syndrome imm)
  | .lookup => .op (.lookup (immNibble imm))
  | .correct =>
    match Entry.ofCode x.e with
    | some e => .op (.correct e imm)
    | none => .reject (.reservedEntryCode x.e)
  | .extract => .op (.extract imm)
  | .hamInit => .op .hamInit

/-- The decoder of operation words (R50, R51, R59): `sel` alone decides the operation (R64). -/
def decodeWord (w : OpWord) (x : TypedOperands) : Decoded :=
  match Op.ofSel w.sel with
  | some op => decodeOp op w.imm x
  | none => .reject (.reservedSelector w.sel)

/-- The decoder at the ports: `opw = {sel, din}` (R50), and only `0x20` and `0x21` are reachable
(10_state.md R26, R59). -/
def decodePort (sel din : Byte) : Decoded :=
  if sel = Op.encode.sel ∨ sel = Op.decode.sel then
    decodeWord (OpWord.make sel din) TypedOperands.zero
  else .reject (.notAPortOperation sel)

/-- One operation as the host presents it. -/
inductive Request where
  /-- at the ports `sel` and `din` (10_state.md R26) -/
  | port (sel din : Byte)
  /-- at an internal unit, with its typed operands beside the word (R50 to R52; log entry 1) -/
  | unit (word : OpWord) (operands : TypedOperands)
  deriving DecidableEq, Repr

/-- The decoder of requests. -/
def Request.decode : Request → Decoded
  | .port sel din => decodePort sel din
  | .unit w x => decodeWord w x

/-- The host's question: the operation of a table word, presented with every typed operand zero
(they are not in the word, R52). One length, 16 bits (R50). -/
def decodeTableWord (nbits w : Nat) : Option Instr :=
  if nbits = 16 ∧ w < 2 ^ 16 then
    (decodeWord (BitVec.ofNat 16 w) TypedOperands.zero).instr?
  else none

/-! ### Encoding -/

/-- The row of R51 an operation belongs to. -/
def Instr.op : Instr → Op
  | .bvCreate _ => .bvCreate
  | .bvSet _ _ => .bvSet
  | .bvClr _ _ => .bvClr
  | .bvXor _ _ _ => .bvXor
  | .bvGet _ _ => .bvGet
  | .bmCreate _ _ => .bmCreate
  | .bmSet _ _ _ => .bmSet
  | .bmClr _ _ _ => .bmClr
  | .bmGet _ _ _ => .bmGet
  | .bmFromData _ _ => .bmFromData
  | .bmToData _ => .bmToData
  | .bmMul _ _ => .bmMul
  | .encode _ => .encode
  | .decode _ => .decode
  | .syndrome _ => .syndrome
  | .lookup _ => .lookup
  | .correct _ _ => .correct
  | .extract _ => .extract
  | .hamInit => .hamInit

/-- The byte operand of an operation; 0 in the word of an operation that has none (R50). -/
def Instr.imm : Instr → Byte
  | .bmFromData _ byte => byte
  | .encode n => n.setWidth 8
  | .decode w => w
  | .syndrome w => w
  | .lookup idx => idx.setWidth 8
  | .correct _ w => w
  | .extract w => w
  | .bvCreate _ => 0
  | .bvSet _ _ => 0
  | .bvClr _ _ => 0
  | .bvXor _ _ _ => 0
  | .bvGet _ _ => 0
  | .bmCreate _ _ => 0
  | .bmSet _ _ _ => 0
  | .bmClr _ _ _ => 0
  | .bmGet _ _ _ => 0
  | .bmToData _ => 0
  | .bmMul _ _ => 0
  | .hamInit => 0

/-- The typed operands of an operation (R51), the others zero. -/
def Instr.operands : Instr → TypedOperands
  | .bvCreate length => { length }
  | .bvSet v i => { v, i }
  | .bvClr v i => { v, i }
  | .bvXor v i value => { v, i, value }
  | .bvGet v i => { v, i }
  | .bmCreate rows cols => { rows, cols }
  | .bmSet m r c => { m, r, c }
  | .bmClr m r c => { m, r, c }
  | .bmGet m r c => { m, r, c }
  | .bmFromData length _ => { length }
  | .bmToData m => { m }
  | .bmMul a b => { a, b }
  | .correct e _ => { e := e.code }
  | .encode _ => {}
  | .decode _ => {}
  | .syndrome _ => {}
  | .lookup _ => {}
  | .extract _ => {}
  | .hamInit => {}

/-- The encoder: the operation word and the operands beside it (R50 to R52). -/
def encode (i : Instr) : OpWord × TypedOperands :=
  (OpWord.make i.op.sel i.imm, i.operands)

end Sys2Proof
end

