-- ==== Sys2Proof/Machine/Storage.lean ====
section
/-! DEFINITION. The storage of one BitVector: its units of one byte, as cells (unit number, byte) in
one canonical form (20_memory.md R30; log entry 10). -/

namespace Sys2Proof.Machine

/-- Storage units in strictly rising order, none equal to what an unlisted unit reads as. -/
abbrev Memory := List Host.Cell

/-- What a storage unit that nothing has written reads as: storage is "zero-initialized"
(R30, 70_reset_and_hazards.md R142). -/
def Memory.blank : Byte := 0x00

/-- The byte of storage unit `u`. -/
def Memory.read : Memory → Nat → Byte
  | [], _ => Memory.blank
  | (a, x) :: rest, u => if u = a then x else Memory.read rest u

/-- Storage with unit `u` holding `b`. -/
def Memory.write : Memory → Nat → Byte → Memory
  | [], u, b => if b = Memory.blank then [] else [(u, b)]
  | (a, x) :: rest, u, b =>
    if u < a then
      if b = Memory.blank then (a, x) :: rest else (u, b) :: (a, x) :: rest
    else if u = a then
      if b = Memory.blank then rest else (u, b) :: rest
    else (a, x) :: Memory.write rest u b

/-- The canonical form. -/
abbrev Memory.wf (m : Memory) : Prop :=
  m.Pairwise (fun c d => c.1 < d.1) ∧ ∀ c ∈ m, c.2 ≠ Memory.blank

end Sys2Proof.Machine
end

