-- ==== Sys2Proof/Machine/BitVector.lean ====
section
/-! DEFINITION. BitVectors as values and their operations on one bit (10_state.md R20, R21;
20_memory.md R31; 40_bitvector.md R71 to R75). The functions do not check the index, as R70 has it;
the meanings in BitVectorFamily.lean do. -/

namespace Sys2Proof.Machine

/-- A BitVector (10_state.md R20): a bit count and storage of `ceil(length/8)` units. -/
structure BitVector where
  length : Nat
  storage : Memory
  deriving DecidableEq, Repr

/-- `ceil(V.length/8)` (R20). -/
def BitVector.unitCount (V : BitVector) : Nat := (V.length + 7) / 8

/-- `MemRead(V, u, 1)` (00_scope.md R7). -/
def BitVector.memRead (V : BitVector) (u : Nat) : Byte := V.storage.read u

/-- `MemWrite(V, u, 1, b)` (00_scope.md R7). -/
def BitVector.memWrite (V : BitVector) (u : Nat) (b : Byte) : BitVector :=
  { V with storage := V.storage.write u b }

/-- The storage units in order, `V.storage[0]`, `V.storage[1]`, ... -/
def BitVector.units (V : BitVector) : List Byte :=
  (List.range V.unitCount).map V.memRead

/-- `i div 8`, the storage unit of bit `i` (20_memory.md R31). -/
def unitOf (i : Nat) : Nat := i / 8

/-- `7 - (i mod 8)`, the position of bit `i` in its unit: most significant bit first (R31). -/
def positionOf (i : Nat) : Nat := 7 - i % 8

/-- `BitRead(V, i)`, BV.GET (R31, 40_bitvector.md R75). -/
def BitVector.bit (V : BitVector) (i : Nat) : Bit :=
  (V.memRead (unitOf i)).getLsbD (positionOf i)

/-- The byte `1 << k`. -/
def bitMask (k : Nat) : Byte := 1#8 <<< k

/-- BV.SET (R72). -/
def BitVector.setBit (V : BitVector) (i : Nat) : BitVector :=
  V.memWrite (unitOf i) (V.memRead (unitOf i) ||| bitMask (positionOf i))

/-- BV.CLR (R73); the complement is within 8 bits. -/
def BitVector.clrBit (V : BitVector) (i : Nat) : BitVector :=
  V.memWrite (unitOf i) (V.memRead (unitOf i) &&& ~~~(bitMask (positionOf i)))

/-- BV.XOR (R74). -/
def BitVector.xorBit (V : BitVector) (i : Nat) (value : Bit) : BitVector :=
  V.memWrite (unitOf i)
    (V.memRead (unitOf i) ^^^ ((BitVec.ofBool value).setWidth 8 <<< positionOf i))

/-- A vector of `length` bits, every storage unit `0x00` (R71, 70_reset_and_hazards.md R142). -/
def BitVector.zero (length : Nat) : BitVector := { length, storage := [] }

/-- BV.CREATE's test on its operand (R71); allocation is the machine's (Ops.lean). -/
def BitVector.create (length : Nat) : Option BitVector :=
  if length < 1 then none else some (BitVector.zero length)

end Sys2Proof.Machine
end

