-- ==== Sys2Proof/Machine/BitMatrix.lean ====
section
/-! DEFINITION. BitMatrices as values: cells, the two conversions, which have opposite bit orders on
purpose (20_memory.md R34), and the GF(2) multiplier (41_bitmatrix.md R80 to R90). The functions do
not check their preconditions (40_bitvector.md R70, "unchecked-fast-path"); the meanings in
BitMatrixFamily.lean do. -/

namespace Sys2Proof.Machine

/-- A BitMatrix (10_state.md R22). -/
structure BitMatrix where
  rows : Nat
  cols : Nat
  vec : BitVector
  deriving DecidableEq, Repr

/-- `r*cols + c`, row-major (20_memory.md R32). -/
def BitMatrix.index (M : BitMatrix) (r c : Nat) : Nat := r * M.cols + c

/-- A cell in range: `r < M.rows` and `c < M.cols`, also when the index would fall in another row
(R36, 41_bitmatrix.md R80, U2). -/
abbrev BitMatrix.inRange (M : BitMatrix) (r c : Nat) : Prop := r < M.rows ∧ c < M.cols

/-- `M[r][c]`, BM.GET (R84). -/
def BitMatrix.cell (M : BitMatrix) (r c : Nat) : Bit := M.vec.bit (M.index r c)

/-- BM.SET (R82). -/
def BitMatrix.setCell (M : BitMatrix) (r c : Nat) : BitMatrix :=
  { M with vec := M.vec.setBit (M.index r c) }

/-- BM.CLR (R83). -/
def BitMatrix.clrCell (M : BitMatrix) (r c : Nat) : BitMatrix :=
  { M with vec := M.vec.clrBit (M.index r c) }

/-- Exclusive or into one cell: how BM.MUL accumulates (R88). -/
def BitMatrix.xorCell (M : BitMatrix) (r c : Nat) (value : Bit) : BitMatrix :=
  { M with vec := M.vec.xorBit (M.index r c) value }

/-- The pseudo-operation BM.FLIP (30_encoding.md R63): "set it if clear, clear it if set". -/
def BitMatrix.flipCell (M : BitMatrix) (r c : Nat) : BitMatrix :=
  if M.cell r c then M.clrCell r c else M.setCell r c

/-- The all-zero matrix of a shape (R81). -/
def BitMatrix.zero (rows cols : Nat) : BitMatrix :=
  { rows, cols, vec := BitVector.zero (rows * cols) }

/-- BM.CREATE's test on its operands, then BV.CREATE of the backing vector (R81). -/
def BitMatrix.create (rows cols : Nat) : Option BitMatrix :=
  if rows < 1 ∨ cols < 1 then none
  else (BitVector.create (rows * cols)).map fun vec => { rows, cols, vec }

/-- The loop of BM.FROMDATA (R85): column `i` of row 0 is set if bit `i` of `byte` is 1. -/
def BitMatrix.fillFromData (M : BitMatrix) (length : Nat) (byte : Byte) : BitMatrix :=
  (List.range length).foldl (fun M i => if byte.getLsbD i then M.setCell 0 i else M) M

/-- BM.FROMDATA (R85), LSB-first. -/
def BitMatrix.fromData (length : Nat) (byte : Byte) : Option BitMatrix :=
  (BitMatrix.create 1 length).map fun M => M.fillFromData length byte

/-- BM.TODATA (R86), MSB-first over the first 8 columns of row 0. -/
def BitMatrix.toData (M : BitMatrix) : Byte :=
  (List.range 8).foldl
    (fun result i => result ||| ((BitVec.ofBool (M.cell 0 i)).setWidth 8 <<< (7 - i))) 0x00

/-- The `k` loop of BM.MUL for cell `(i,j)` (R88). -/
def BitMatrix.mulCell (A B : BitMatrix) (i j : Nat) (C : BitMatrix) : BitMatrix :=
  (List.range A.cols).foldl (fun C k => C.xorCell i j (A.cell i k && B.cell k j)) C

/-- The `j` loop of BM.MUL for row `i` (R88). -/
def BitMatrix.mulRow (A B : BitMatrix) (i : Nat) (C : BitMatrix) : BitMatrix :=
  (List.range B.cols).foldl (fun C j => BitMatrix.mulCell A B i j C) C

/-- The three loops of BM.MUL over a matrix `C` (R88): "the literal double-sum over the field". -/
def BitMatrix.mulInto (A B C : BitMatrix) : BitMatrix :=
  (List.range A.rows).foldl (fun C i => BitMatrix.mulRow A B i C) C

/-- BM.MUL (R88): a new matrix, distinct from `A` and `B`. -/
def BitMatrix.mul (A B : BitMatrix) : Option BitMatrix :=
  (BitMatrix.create A.rows B.cols).map fun C => BitMatrix.mulInto A B C

/-- The pseudo-operation TODATA4 (43_decoder.md R101, 90_conflicts.md C1, D6): the syndrome index
`8*s0 + 4*s1 + 2*s2 + s3`, column 0 most significant. -/
def BitMatrix.toData4 (S : BitMatrix) : Nibble :=
  BitVec.ofNat 4 (8 * (S.cell 0 0).toNat + 4 * (S.cell 0 1).toNat + 2 * (S.cell 0 2).toNat
    + (S.cell 0 3).toNat)

/-- The byte `w` with `w[i] = M[0][i]`, `i = 0..7`: how CORRECT delivers its vector (R103). -/
def BitMatrix.toCodeword (M : BitMatrix) : Byte :=
  (List.range 8).foldl
    (fun result i => result ||| ((BitVec.ofBool (M.cell 0 i)).setWidth 8 <<< i)) 0x00

/-- `bitrev8(x)`: the value `y` with `y[7-i] = x[i]` (00_scope.md R9, 41_bitmatrix.md R90). -/
def bitrev8 (x : Byte) : Byte := BitVec.ofFnLE fun i : Fin 8 => x.getLsbD (7 - i)

end Sys2Proof.Machine
end

