-- ==== Sys2Proof/Machine/Constants.lean ====
section
/-! DEFINITION. The three read-only constants (10_state.md R12 to R17): their construction by
HAM.INIT (42_codec_encoder.md R95), and their contents as storage (70_reset_and_hazards.md R140). -/

namespace Sys2Proof.Machine

/-- `G`, `HT` and `ERRTAB`: "they are the only process-wide state" (10_state.md section 2). -/
structure Constants where
  G : BitMatrix
  HT : BitMatrix
  errTab : Vector Entry 16
  deriving DecidableEq, Repr

/-- Whether `G[r][c]` is 1 (R12). -/
def gOne (r c : Nat) : Bool := (c < 4 && r == c) || (4 ≤ c && r != c - 4)

/-- Whether `HT[r][c]` is 1 (R14). -/
def htOne (r c : Nat) : Bool := (r < 4 && r != c) || (4 ≤ r && c == r - 4)

/-- Sets, in a matrix, the cells `(r,c)` for which `one r c`, row by row (R95). -/
def BitMatrix.setWhere (M : BitMatrix) (one : Nat → Nat → Bool) : BitMatrix :=
  (List.range M.rows).foldl (fun M r =>
    (List.range M.cols).foldl (fun M c => if one r c then M.setCell r c else M) M) M

/-- The entries of `ERRTAB`, syndrome index 0 first (R16). -/
def errTabEntries : Vector Entry 16 :=
  #v[.noerr, .pos 7, .pos 6, .uncorr, .pos 5, .uncorr, .uncorr, .pos 0,
     .pos 4, .uncorr, .uncorr, .pos 1, .uncorr, .pos 2, .pos 3, .uncorr]

/-- HAM.INIT's construction (R95, R147): two zero matrices, the cells of R12 and R14 set, the table. -/
def Constants.build : Constants where
  G := (BitMatrix.zero 4 8).setWhere gOne
  HT := (BitMatrix.zero 8 4).setWhere htOne
  errTab := errTabEntries

/-- The constants as read-only memory, the storage of R140. -/
def Constants.rom : Constants where
  G := { rows := 4, cols := 8,
         vec := { length := 32, storage := [(0, 0x87), (1, 0x4B), (2, 0x2D), (3, 0x1E)] } }
  HT := { rows := 8, cols := 4,
          vec := { length := 32, storage := [(0, 0x7B), (1, 0xDE), (2, 0x84), (3, 0x21)] } }
  errTab := errTabEntries

end Sys2Proof.Machine
end

