-- ==== Sys2Proof/Machine/Flags.lean ====
section
/-! DEFINITION. The block has no flags register and no condition codes (10_state.md R19). What
stands in their place is the status result of DECODE and CORRECT, and its code at the port. -/

namespace Sys2Proof.Machine

/-- The status of a decoding (R19): "first-class status values, not faults". -/
inductive Status where
  | ok
  | corrected
  | err
  deriving DecidableEq, Repr

/-- `status[1:0]` (30_encoding.md R56, D4). -/
def Status.code : Status → BitVec 2
  | .ok => 0b00
  | .corrected => 0b01
  | .err => 0b10

/-- The status a code stands for; none for `11`, "never produced" (R56, U10). -/
def Status.ofCode (code : BitVec 2) : Option Status :=
  if code = 0b00 then some .ok
  else if code = 0b01 then some .corrected
  else if code = 0b10 then some .err
  else none

/-- The status CORRECT and DECODE report for a table entry (43_decoder.md R103). -/
def Status.ofEntry : Entry → Status
  | .noerr => .ok
  | .uncorr => .err
  | .pos _ => .corrected

end Sys2Proof.Machine
end

