-- ==== Sys2Proof/Machine/State.lean ====
section
/-! DEFINITION. The state of the block (10_state.md R27), the reasons a step can stop, and reset
(70_reset_and_hazards.md R140 to R145). -/

namespace Sys2Proof.Machine

/-- What an operation delivers (30_encoding.md R51, column "result"; 92_eei_decisions.md D16). -/
inductive Result where
  /-- no operation has been performed yet (R141: nothing else has a reset value; log entry 4) -/
  | idle
  /-- a failed creation: "an absent/null handle" (60_exceptions.md R127) -/
  | absent
  /-- the vector instance created or updated -/
  | vector (h : Nat)
  /-- the matrix instance created or updated -/
  | matrix (h : Nat)
  /-- one bit: BV.GET, BM.GET (D23) -/
  | bit (b : Bit)
  /-- an 8-bit value: BM.TODATA -/
  | byte (x : Byte)
  /-- a codeword: ENCODE -/
  | codeword (w : Byte)
  /-- status and nibble: DECODE -/
  | decoded (st : Status) (n : Nibble)
  /-- the syndrome index: SYNDROME -/
  | index (idx : Nibble)
  /-- an error-table entry: LOOKUP -/
  | entry (e : Entry)
  /-- status and corrected codeword: CORRECT -/
  | corrected (st : Status) (w : Byte)
  /-- a nibble: EXTRACT -/
  | nibble (n : Nibble)
  /-- the constants: HAM.INIT -/
  | constants (c : Constants)
  deriving DecidableEq, Repr

/-- The preconditions whose violation the source leaves undefined (60_exceptions.md R129). -/
inductive Precondition where
  /-- U1: `i < V.length` -/
  | bitIndex
  /-- U2: `r < M.rows` and `c < M.cols` -/
  | cellInRange
  /-- U3: BM.TODATA's `M.cols >= 8` -/
  | eightColumns
  /-- U4: BM.FROMDATA's `length <= 8` -/
  | fromDataLength
  /-- U5: BM.MUL's `A.cols = B.rows` -/
  | shapesMatch
  deriving DecidableEq, Repr

/-- The block raises no exception (60_exceptions.md R125). The one fault is the parameter's. -/
inductive Fault where
  /-- A precondition of R129 is violated and `UNDEF_TREATMENT` is `fault` (D11; log entry 6): raised by
  the BV and BM operations. Safe: the source gives the case no meaning. -/
  | undefinedBehaviour (p : Precondition)
  deriving DecidableEq, Repr

/-- Why the model gives a step no meaning. -/
inductive Refusal where
  /-- An operation of the table without a meaning in the model, by its mnemonic: raised by `exec` only.
  Safe. -/
  | notModelled (mnemonic : String)
  /-- A precondition of R129 is violated and `UNDEF_TREATMENT` is `refuse`, its default (D11): raised by
  the BV and BM operations. Safe. -/
  | undefinedBehaviour (p : Precondition)
  /-- The decoder gives the request no operation (30_encoding.md R59, R60; U9, U10, D14): raised by
  `step`. Safe. -/
  | rejected (why : Reject)
  /-- An operand denotes no instance: "no operation is defined on `absent`" (60_exceptions.md R132; log
  entry 7): raised by every operation with a vector or matrix operand. Safe. -/
  | absentOperand
  /-- BM.SET or BM.CLR of `G` or `HT`: "Never write `G`, `HT` or `ERRTAB`" (70_reset_and_hazards.md R149,
  10_state.md R17; log entry 8). Safe. -/
  | constantWrite
  deriving DecidableEq, Repr

/-- The state of the block, plain data. -/
structure State where
  /-- `G`, `HT`, `ERRTAB` (10_state.md R12 to R17) -/
  consts : Constants
  /-- the BitVector instances, by handle: the `h`-th created (R20, R27; log entry 2) -/
  vectors : List BitVector
  /-- the BitMatrix instances, by handle, each with its own backing vector (R22, R23, R27) -/
  matrices : List BitMatrix
  /-- the inputs: the operations the host presents, in the order it presents them (R11, R26; log entry 3) -/
  pending : List Request
  /-- the result of the operation last performed (log entry 4) -/
  result : Result
  /-- output port `dout[7:0]` (R26); none when the last operation was not one of the ports' -/
  dout : Option Byte
  /-- output port `status[1:0]` (R26, R56); none when the last operation was not one of the ports' -/
  status : Option (BitVec 2)
  /-- the parameters (00_scope.md R5), fixed for a machine -/
  config : Config
  /-- the MODEL's own: how many free values have been drawn (U6; log entry 5) -/
  draws : Nat
  deriving DecidableEq, Repr

/-- Right after reset: the constants, and nothing else (R140, R141, R145). -/
def State.reset : State where
  consts := Constants.rom
  vectors := []
  matrices := []
  pending := []
  result := .idle
  dout := none
  status := none
  config := {}
  draws := 0

end Sys2Proof.Machine
end

