-- ==== Sys2Proof/Machine/Operands.lean ====
section
/-! DEFINITION. Operand forms (30_encoding.md R52, R53): the instance a vector or matrix operand
denotes. Byte, nibble and number operands are read by the decoder (Decode.lean); assembling a byte
into a row vector and back is BitMatrix.lean's (R57, R58). -/

namespace Sys2Proof.Machine

/-- The vector a handle denotes, if there is one. -/
def State.vector? (s : State) (v : Nat) : Option BitVector := s.vectors[v]?

/-- The matrix an operand denotes: a constant or a created instance (R52, R62). -/
def State.matrix? (s : State) : MatRef → Option BitMatrix
  | .g => some s.consts.G
  | .ht => some s.consts.HT
  | .inst h => s.matrices[h]?

/-- The vector instances a word presented alone needs for its all-zero operands (log entry 13). -/
def Op.usesVector : Op → Bool
  | .bvSet | .bvClr | .bvXor | .bvGet => true
  | _ => false

/-- The matrix instances a word presented alone needs for its all-zero operands (log entry 13). -/
def Op.usesMatrix : Op → Bool
  | .bmSet | .bmClr | .bmGet | .bmToData | .bmMul => true
  | _ => false

/-- `s` with an instance for handle 0 where the operation reads one and none exists: an all-zero
vector of 8 bits, an all-zero 8×8 matrix (log entry 13). -/
def State.withOperandFor (s : State) (op : Option Op) : State :=
  { s with
    vectors := if op.any Op.usesVector && s.vectors.isEmpty then [BitVector.zero 8] else s.vectors
    matrices :=
      if op.any Op.usesMatrix && s.matrices.isEmpty then [BitMatrix.zero 8 8] else s.matrices }

end Sys2Proof.Machine
end

