-- ==== Sys2Proof/Machine/Ops.lean ====
section
/-! DEFINITION. The operations on the state that the meanings share. The block takes no exception
and has no trap entry or return (60_exceptions.md R125, R132, R133): there is no operation for one.
What it has instead is a failed creation (`install…` delivering `absent`, R127) and the undefined
precondition (`undefinedBehaviour`, R129). -/

namespace Sys2Proof.Machine

/-- The outcome of an operation. -/
abbrev Out := Host.Outcome State Fault Refusal

/-! ### Delivering a result -/

/-- What a result puts on `dout` (10_state.md R26): ENCODE the codeword, DECODE the nibble
zero-extended (D8); the other operations have no port (R51). -/
def Result.dout : Result → Option Byte
  | .codeword w => some w
  | .decoded _ n => some (n.setWidth 8)
  | _ => none

/-- What a result puts on `status` (R26): ENCODE drives `OK` (D2), DECODE its status. -/
def Result.statusPort : Result → Option (BitVec 2)
  | .codeword _ => some Status.ok.code
  | .decoded st _ => some st.code
  | _ => none

/-- The operation delivers `r`, and the ports show it if it is one of theirs. -/
def State.deliver (s : State) (r : Result) : State :=
  { s with result := r, dout := r.dout, status := r.statusPort }

/-! ### Instances -/

/-- A new vector instance (60_exceptions.md R137, "Private to each"): it takes the next handle. -/
def State.addVector (s : State) (V : BitVector) : State := { s with vectors := s.vectors ++ [V] }

/-- A new matrix instance, distinct from every other (10_state.md R23). -/
def State.addMatrix (s : State) (M : BitMatrix) : State := { s with matrices := s.matrices ++ [M] }

/-- Vector instance `v` holds `V`. -/
def State.putVector (s : State) (v : Nat) (V : BitVector) : State :=
  { s with vectors := s.vectors.set v V }

/-- Matrix instance `h` holds `M`. -/
def State.putMatrix (s : State) (h : Nat) (M : BitMatrix) : State :=
  { s with matrices := s.matrices.set h M }

/-! ### Allocation -/

/-- Whether the next allocation fails: only when `ALLOC_CAN_FAIL`, and then by a free value (U6). -/
def State.allocFails (s : State) : Bool := s.config.allocCanFail && Config.freeAllocFails s.draws

/-- The free value of one allocation is used up (log entry 5). -/
def State.drawn (s : State) : State :=
  if s.config.allocCanFail then { s with draws := s.draws + 1 } else s

/-- The end of a creating vector operation (R71, R127): `absent` if the parameter test failed or the
allocation fails, else the new instance. The parameter test comes first (D21). -/
def State.installVector (s : State) : Option BitVector → State
  | none => s.deliver .absent
  | some V =>
    if s.allocFails then s.drawn.deliver .absent
    else (s.drawn.addVector V).deliver (.vector s.vectors.length)

/-- The end of a creating matrix operation (41_bitmatrix.md R81, R85, R88; R127). -/
def State.installMatrix (s : State) : Option BitMatrix → State
  | none => s.deliver .absent
  | some M =>
    if s.allocFails then s.drawn.deliver .absent
    else (s.drawn.addMatrix M).deliver (.matrix s.matrices.length)

/-! ### Stops -/

/-- A violated precondition has no meaning (R129, D11): never a value, never a silent no-op. -/
def State.undefinedBehaviour (s : State) (p : Precondition) : Out :=
  match s.config.undefTreatment with
  | .refuse => .refused (.undefinedBehaviour p)
  | .fault => .fault (.undefinedBehaviour p)

/-! ### Access to the instance an operand denotes -/

/-- An operation on one bit of a vector operand: the vector must exist (R132) and the index be below
its length (40_bitvector.md R72 to R75, U1). -/
def State.onBit (s : State) (v i : Nat) (k : BitVector → Out) : Out :=
  match s.vector? v with
  | none => .refused .absentOperand
  | some V => if i < V.length then k V else s.undefinedBehaviour .bitIndex

/-- An operation that reads a matrix operand. -/
def State.onMatrix (s : State) (m : MatRef) (k : BitMatrix → Out) : Out :=
  match s.matrix? m with
  | none => .refused .absentOperand
  | some M => k M

/-- An operation that writes one cell of a matrix operand: a created instance, never a constant
(10_state.md R17, R149), and a cell in range (41_bitmatrix.md R80, U2). -/
def State.onWritableCell (s : State) (m : MatRef) (r c : Nat) (k : Nat → BitMatrix → Out) : Out :=
  match m with
  | .g => .refused .constantWrite
  | .ht => .refused .constantWrite
  | .inst h =>
    match s.matrices[h]? with
    | none => .refused .absentOperand
    | some M => if M.inRange r c then k h M else s.undefinedBehaviour .cellInRange

/-! ### The host's side -/

/-- The host presents an operation as the next one. -/
def State.present (s : State) (q : Request) : State := { s with pending := q :: s.pending }

/-- The operation presented next, if any, and the state without it (R11). -/
def State.fetch (s : State) : Option (Request × State) :=
  match s.pending with
  | [] => none
  | q :: rest => some (q, { s with pending := rest })

/-- The 16-bit word `w` presented next with every typed operand zero, and the instances those
operands denote (log entry 13). -/
def State.presentTableWord (s : State) (w : OpWord) : State :=
  (s.withOperandFor (Op.ofSel w.sel)).present (.unit w TypedOperands.zero)

end Sys2Proof.Machine
end

