-- ==== Sys2Proof/Machine/BitMatrixFamily.lean ====
section
/-! DEFINITION. The meanings of the BitMatrix operations (41_bitmatrix.md). -/

namespace Sys2Proof.Machine

/-- BM.CREATE (R81). -/
def execBmCreate (rows cols : Nat) (s : State) : Out :=
  .next (s.installMatrix (BitMatrix.create rows cols))

/-- BM.SET (R82). -/
def execBmSet (m : MatRef) (r c : Nat) (s : State) : Out :=
  s.onWritableCell m r c fun h M => .next ((s.putMatrix h (M.setCell r c)).deliver (.matrix h))

/-- BM.CLR (R83). -/
def execBmClr (m : MatRef) (r c : Nat) (s : State) : Out :=
  s.onWritableCell m r c fun h M => .next ((s.putMatrix h (M.clrCell r c)).deliver (.matrix h))

/-- BM.GET (R84). -/
def execBmGet (m : MatRef) (r c : Nat) (s : State) : Out :=
  s.onMatrix m fun M =>
    if M.inRange r c then .next (s.deliver (.bit (M.cell r c)))
    else s.undefinedBehaviour .cellInRange

/-- BM.FROMDATA (R85). A failed creation comes before the precondition (60_exceptions.md R131 (c);
log entry 9). -/
def execBmFromData (length : Nat) (byte : Byte) (s : State) : Out :=
  if length ≤ 8 ∨ s.allocFails = true then
    .next (s.installMatrix (BitMatrix.fromData length byte))
  else s.undefinedBehaviour .fromDataLength

/-- BM.TODATA (R86, R87): at least 8 columns; the 1×4 syndrome is TODATA4's, not this one's. -/
def execBmToData (m : MatRef) (s : State) : Out :=
  s.onMatrix m fun M =>
    if 8 ≤ M.cols then .next (s.deliver (.byte M.toData))
    else s.undefinedBehaviour .eightColumns

/-- BM.MUL (R88). A failed creation comes before the precondition (R131 (c); log entry 9). -/
def execBmMul (a b : MatRef) (s : State) : Out :=
  s.onMatrix a fun A => s.onMatrix b fun B =>
    if A.cols = B.rows ∨ s.allocFails = true then
      .next (s.installMatrix (BitMatrix.mul A B))
    else s.undefinedBehaviour .shapesMatch

end Sys2Proof.Machine
end

