-- ==== Sys2Proof/Machine/BitVectorFamily.lean ====
section
/-! DEFINITION. The meanings of the BitVector operations (40_bitvector.md). -/

namespace Sys2Proof.Machine

/-- BV.CREATE (R71). -/
def execBvCreate (length : Nat) (s : State) : Out :=
  .next (s.installVector (BitVector.create length))

/-- BV.SET (R72). -/
def execBvSet (v i : Nat) (s : State) : Out :=
  s.onBit v i fun V => .next ((s.putVector v (V.setBit i)).deliver (.vector v))

/-- BV.CLR (R73). -/
def execBvClr (v i : Nat) (s : State) : Out :=
  s.onBit v i fun V => .next ((s.putVector v (V.clrBit i)).deliver (.vector v))

/-- BV.XOR (R74). -/
def execBvXor (v i : Nat) (value : Bit) (s : State) : Out :=
  s.onBit v i fun V => .next ((s.putVector v (V.xorBit i value)).deliver (.vector v))

/-- BV.GET (R75). -/
def execBvGet (v i : Nat) (s : State) : Out :=
  s.onBit v i fun V => .next (s.deliver (.bit (V.bit i)))

end Sys2Proof.Machine
end

