-- ==== Sys2Proof/Machine/Codec.lean ====
section
/-! DEFINITION. The encoder and the four parts of the decoder as functions of the constants and the
operand (42_codec_encoder.md R96; 43_decoder.md R100 to R105). Every index and shape inside them is
fixed and in range (60_exceptions.md R129), nothing is allocated (90_conflicts.md C2), so none of
them can fail. The transient matrices `D`, `P`, `R`, `S` of 10_state.md R18 are local values. -/

namespace Sys2Proof.Machine

/-- The 1×`length` matrix of a byte: ENCODE's and DECODE's first step (30_encoding.md R57). -/
def Codec.rowOf (length : Nat) (byte : Byte) : BitMatrix :=
  (BitMatrix.zero 1 length).fillFromData length byte

/-- The product as the codec forms it, at the fixed shapes 1×4·4×8 and 1×8·8×4 (R88, R89). -/
def Codec.product (A B : BitMatrix) : BitMatrix :=
  BitMatrix.mulInto A B (BitMatrix.zero A.rows B.cols)

/-- ENCODE (42_codec_encoder.md R96). -/
def Codec.encode (G : BitMatrix) (n : Nibble) : Byte :=
  (Codec.product (Codec.rowOf 4 (n.setWidth 8)) G).toData

/-- SYNDROME (43_decoder.md R100, R101). -/
def Codec.syndrome (HT : BitMatrix) (w : Byte) : Nibble :=
  (Codec.product (Codec.rowOf 8 w) HT).toData4

/-- LOOKUP (R102): `ERRTAB[idx]`, total on the 16 indices. -/
def Codec.lookup (errTab : Vector Entry 16) (idx : Nibble) : Entry :=
  errTab[idx.toNat]'idx.isLt

/-- Decode step 3 on the received vector (R103): column `p` flipped for `POS p`, nothing otherwise. -/
def Codec.correctRow (e : Entry) (R : BitMatrix) : BitMatrix :=
  match e with
  | .noerr => R
  | .uncorr => R
  | .pos p => R.flipCell 0 p

/-- CORRECT (R103): the status and the corrected codeword. -/
def Codec.correct (e : Entry) (w : Byte) : Status × Byte :=
  (Status.ofEntry e, (Codec.correctRow e (Codec.rowOf 8 w)).toCodeword)

/-- Decode step 4 (R104): `to_data`, "masking to the low 4 bits". -/
def Codec.nibbleOf (R : BitMatrix) : Nibble :=
  (R.toData &&& 0x0F).setWidth 4

/-- EXTRACT (R104). -/
def Codec.extract (w : Byte) : Nibble :=
  Codec.nibbleOf (Codec.rowOf 8 w)

/-- DECODE (R105). -/
def Codec.decode (HT : BitMatrix) (errTab : Vector Entry 16) (w : Byte) : Status × Nibble :=
  let R := Codec.rowOf 8 w
  let S := Codec.product R HT
  let e := Codec.lookup errTab S.toData4
  (Status.ofEntry e, Codec.nibbleOf (Codec.correctRow e R))

end Sys2Proof.Machine
end

