-- ==== Sys2Proof/Machine/CodecFamily.lean ====
section
/-! DEFINITION. The meanings of the HammingCodec operations (42_codec_encoder.md, 43_decoder.md). -/

namespace Sys2Proof.Machine

/-- ENCODE (R96): "No failure path". -/
def execEncode (n : Nibble) (s : State) : Out :=
  .next (s.deliver (.codeword (Codec.encode s.consts.G n)))

/-- DECODE (R105): `ERR` is a status, not a fault (60_exceptions.md R128). -/
def execDecode (w : Byte) (s : State) : Out :=
  .next (s.deliver (.decoded (Codec.decode s.consts.HT s.consts.errTab w).1
    (Codec.decode s.consts.HT s.consts.errTab w).2))

/-- SYNDROME (R100, R101). -/
def execSyndrome (w : Byte) (s : State) : Out :=
  .next (s.deliver (.index (Codec.syndrome s.consts.HT w)))

/-- LOOKUP (R102). -/
def execLookup (idx : Nibble) (s : State) : Out :=
  .next (s.deliver (.entry (Codec.lookup s.consts.errTab idx)))

/-- CORRECT (R103). -/
def execCorrect (e : Entry) (w : Byte) (s : State) : Out :=
  .next (s.deliver (.corrected (Codec.correct e w).1 (Codec.correct e w).2))

/-- EXTRACT (R104). -/
def execExtract (w : Byte) (s : State) : Out :=
  .next (s.deliver (.nibble (Codec.extract w)))

/-- HAM.INIT (42_codec_encoder.md R95): the constants are constructed; on a block out of reset they
hold the same values already (D10; log entry 11). -/
def execHamInit (s : State) : Out :=
  .next ({ s with consts := Constants.build }.deliver (.constants Constants.build))

end Sys2Proof.Machine
end

