-- ==== Sys2Proof/Machine/Dispatch.lean ====
section
/-! DEFINITION. One arm per operation. -/

namespace Sys2Proof.Machine

/-- The meaning of an operation. -/
def exec (i : Instr) (s : State) : Host.Outcome State Fault Refusal :=
  match i with
  | .bvCreate length => Sys2Proof.Machine.execBvCreate length s
  | .bvSet v k => Sys2Proof.Machine.execBvSet v k s
  | .bvClr v k => Sys2Proof.Machine.execBvClr v k s
  | .bvXor v k value => Sys2Proof.Machine.execBvXor v k value s
  | .bvGet v k => Sys2Proof.Machine.execBvGet v k s
  | .bmCreate rows cols => Sys2Proof.Machine.execBmCreate rows cols s
  | .bmSet m r c => Sys2Proof.Machine.execBmSet m r c s
  | .bmClr m r c => Sys2Proof.Machine.execBmClr m r c s
  | .bmGet m r c => Sys2Proof.Machine.execBmGet m r c s
  | .bmFromData length byte => Sys2Proof.Machine.execBmFromData length byte s
  | .bmToData m => Sys2Proof.Machine.execBmToData m s
  | .bmMul a b => Sys2Proof.Machine.execBmMul a b s
  | .encode n => Sys2Proof.Machine.execEncode n s
  | .decode w => Sys2Proof.Machine.execDecode w s
  | .syndrome w => Sys2Proof.Machine.execSyndrome w s
  | .lookup idx => Sys2Proof.Machine.execLookup idx s
  | .correct e w => Sys2Proof.Machine.execCorrect e w s
  | .extract w => Sys2Proof.Machine.execExtract w s
  | .hamInit => Sys2Proof.Machine.execHamInit s

end Sys2Proof.Machine
end

