-- ==== Sys2Proof/Machine/Step.lean ====
section
/-! DEFINITION. One step: the operation the host presents next is decoded and performed, complete
before the next begins (10_state.md R11, 20_memory.md R41, 92_eei_decisions.md D1). -/

namespace Sys2Proof.Machine

/-- One step. With nothing presented the block does nothing (log entry 3). -/
def step (s : State) : Host.Outcome State Fault Refusal :=
  match s.fetch with
  | none => .next s
  | some (q, t) =>
    match q.decode with
    | .op i => exec i t
    | .reject why => .refused (.rejected why)

/-- The host's placing of one table word as the next operation (log entry 13). -/
def State.withFetchWord (s : State) (_nbits w : Nat) : State :=
  s.presentTableWord (BitVec.ofNat 16 w)

end Sys2Proof.Machine
end

