-- ==== Sys2Proof/Machine/HostStream.lean ====
section
/-! DEFINITION. The host's two procedures over the block (44_host_stream.md R115 to R122): outside the
block, with no selector and no state in it; they use it only through ENCODE and DECODE at the ports,
one step each. The parity cache of R123 is left out (10_state.md R25, D12). Log entries 15, 20 and
21. -/

namespace Sys2Proof

/-- What `total` grows by for two input bytes decoded into one output byte. -/
def TotalReading.perPair : TotalReading → Nat
  | .inputWithTrailing => 2
  | .inputWithoutTrailing => 2
  | .output => 1

/-- What `total` grows by for a dropped trailing byte. -/
def TotalReading.perTrailing : TotalReading → Nat
  | .inputWithTrailing => 1
  | .inputWithoutTrailing => 0
  | .output => 0

end Sys2Proof

namespace Sys2Proof.Machine

/-- What the host sees of one operation at the ports, and the block after it. -/
structure PortUse where
  dout : Byte
  status : BitVec 2
  after : State
  deriving DecidableEq, Repr

/-- The host presents `sel` and `din`, the block makes one step, the host reads the ports. None if the
step stops or the ports show nothing. -/
def State.usePort (s : State) (sel din : Byte) : Option PortUse :=
  match step (s.present (.port sel din)) with
  | .next t =>
    match t.dout, t.status with
    | some dout, some status => some { dout, status, after := t }
    | _, _ => none
  | .fault _ => none
  | .refused _ => none

/-- Encoded bytes and the block after them. -/
structure Encoded where
  bytes : List Byte
  after : State
  deriving DecidableEq, Repr

/-- ENCSTREAM (R116): for each byte the low nibble's codeword, then the high nibble's. -/
def encStream (s : State) : List Byte → Option Encoded
  | [] => some { bytes := [], after := s }
  | x :: rest =>
    match s.usePort 0x20 ((x.extractLsb' 0 4).setWidth 8) with
    | none => none
    | some lo =>
      match lo.after.usePort 0x20 ((x.extractLsb' 4 4).setWidth 8) with
      | none => none
      | some hi =>
        match encStream hi.after rest with
        | none => none
        | some e => some { e with bytes := lo.dout :: hi.dout :: e.bytes }

/-- The host's three counts (R120). Their widths are not in the source: unbounded natural numbers are the
model's choice (DESIGN CHOICE, log entry 20). -/
structure Counters where
  /-- "the bytes processed" -/
  total : Nat
  /-- nibbles whose DECODE returned `ERR` -/
  uncorrectable : Nat
  /-- nibbles whose DECODE returned `CORRECTED` -/
  corrected : Nat
  deriving DecidableEq, Repr

/-- One DECODE counted by its status (R120). -/
def Counters.count (k : Counters) : Status → Counters
  | .ok => k
  | .corrected => { k with corrected := k.corrected + 1 }
  | .err => { k with uncorrectable := k.uncorrectable + 1 }

/-- Two input bytes decoded into one output byte, counted in `total` (R120). -/
def Counters.countPair (k : Counters) : Counters :=
  { k with total := k.total + Config.hostTotalReading.perPair }

/-- A dropped trailing byte (R118), counted in `total` (R120). -/
def Counters.countTrailing (k : Counters) : Counters :=
  { k with total := k.total + Config.hostTotalReading.perTrailing }

/-- The counts after one pair whose two statuses are given. -/
def Counters.afterPair (k : Counters) (st0 st1 : Status) : Counters :=
  ((k.count st0).count st1).countPair

/-- Decoded bytes, the counts and the block after them. -/
structure Unstreamed where
  bytes : List Byte
  counters : Counters
  after : State
  deriving DecidableEq, Repr

/-- `((hi << 4) | (lo & 0xF)) & 0xFF` (R117). -/
def repack (lo hi : Byte) : Byte := ((hi <<< 4) ||| (lo &&& 0x0F)) &&& 0xFF

/-- DECSTREAM (R117): two bytes at a time; an unpaired trailing byte is dropped, not decoded (R118); an
`ERR` does not stop the stream (R122). The counts start from what the host gives (log entry 15). -/
def decStream (s : State) (k : Counters) : List Byte → Option Unstreamed
  | [] => some { bytes := [], counters := k, after := s }
  | [_] => some { bytes := [], counters := k.countTrailing, after := s }
  | w0 :: w1 :: rest =>
    match s.usePort 0x21 w0 with
    | none => none
    | some lo =>
      match lo.after.usePort 0x21 w1 with
      | none => none
      | some hi =>
        match Status.ofCode lo.status, Status.ofCode hi.status with
        | some st0, some st1 =>
          match decStream hi.after (k.afterPair st0 st1) rest with
          | none => none
          | some d => some { d with bytes := repack lo.dout hi.dout :: d.bytes }
        | _, _ => none

/-- The error rate `uncorrectable / total` (R121): the exact quotient as the host's floating point has it;
the parameter's value when `total` is 0. -/
def errorRate (k : Counters) : HostFloat :=
  if k.total = 0 then Config.hostRateAtZero
  else Config.hostRoundedRate k.uncorrectable k.total ((k.uncorrectable : Rat) / (k.total : Rat))

/-- The diagnostics of one DECSTREAM (R120): the three counts and the error rate. -/
structure Diagnostics where
  counters : Counters
  rate : HostFloat
  deriving DecidableEq, Repr

/-- The diagnostics the host reads after DECSTREAM (R120, R121). -/
def Unstreamed.diagnostics (d : Unstreamed) : Diagnostics :=
  { counters := d.counters, rate := errorRate d.counters }

end Sys2Proof.Machine
end

