-- ==== Sys2Proof/Machine/Ports.lean ====
section
/-! DEFINITION. The block as its ports show it (10_state.md R26): "The outputs are a function of the
present inputs and the constants alone". The machine's steps are stated to agree with it. -/

namespace Sys2Proof.Machine

/-- `dout` and `status` for the inputs `sel` and `din`; none for a selector the ports do not reach
(30_encoding.md R59). -/
def portFunction (c : Constants) (sel din : Byte) : Option (Byte × BitVec 2) :=
  if sel = 0x20 then some (Codec.encode c.G (immNibble din), Status.ok.code)
  else if sel = 0x21 then
    some ((Codec.decode c.HT c.errTab din).2.setWidth 8, (Codec.decode c.HT c.errTab din).1.code)
  else none

end Sys2Proof.Machine
end

