-- ==== Sys2Proof/Safety.lean ====
section
/-! DEFINITION. What a good state is (the invariants of 10_state.md R17, R21, R23), when an operation
is within its preconditions (60_exceptions.md R129, R132; 70_reset_and_hazards.md R148, R149), and the
frames claims are stated with. -/

namespace Sys2Proof.Machine

/-! ### Invariants -/

/-- A good vector (10_state.md R21): a length of at least 1, storage in canonical form, no unit beyond
`ceil(length/8)`, and pad bits zero. -/
abbrev BitVector.Good (V : BitVector) : Prop :=
  1 ≤ V.length ∧ V.storage.wf ∧ (∀ c ∈ V.storage, c.1 < V.unitCount) ∧
    ∀ i < 8 * V.unitCount, V.length ≤ i → V.bit i = false

/-- A good matrix (R22, R23): at least one row and column, and a good vector of length `rows*cols`. -/
abbrev BitMatrix.Good (M : BitMatrix) : Prop :=
  1 ≤ M.rows ∧ 1 ≤ M.cols ∧ M.vec.length = M.rows * M.cols ∧ M.vec.Good

/-- A delivered handle denotes an instance. -/
def State.denotes (s : State) : Result → Bool
  | .vector h => decide (h < s.vectors.length)
  | .matrix h => decide (h < s.matrices.length)
  | _ => true

/-- The invariant: the constants are the read-only memory (R17), every instance is good (R21, R23), a
delivered handle denotes an instance (log entry 2), and the ports kept in State are what the last result puts
there (the model's choice, log entry 4; canonical storage: log entry 10). -/
abbrev State.Inv (s : State) : Prop :=
  s.consts = Constants.rom ∧ (∀ V ∈ s.vectors, V.Good) ∧ (∀ M ∈ s.matrices, M.Good) ∧
    s.denotes s.result = true ∧ s.dout = s.result.dout ∧ s.status = s.result.statusPort

/-! ### Preconditions -/

/-- The vector a handle denotes exists and `i` is below its length. -/
def State.hasBit (s : State) (v i : Nat) : Prop :=
  ∃ V, s.vector? v = some V ∧ i < V.length

/-- The matrix an operand denotes exists and `(r,c)` is a cell of it. -/
def State.hasCell (s : State) (m : MatRef) (r c : Nat) : Prop :=
  ∃ M, s.matrix? m = some M ∧ M.inRange r c

/-- The operation is within its preconditions in `s`: what a user must respect (R148, R149). -/
def State.Allows (s : State) : Instr → Prop
  | .bvCreate _ => True
  | .bvSet v i => s.hasBit v i
  | .bvClr v i => s.hasBit v i
  | .bvXor v i _ => s.hasBit v i
  | .bvGet v i => s.hasBit v i
  | .bmCreate _ _ => True
  | .bmSet m r c => m.writable = true ∧ s.hasCell m r c
  | .bmClr m r c => m.writable = true ∧ s.hasCell m r c
  | .bmGet m r c => s.hasCell m r c
  | .bmFromData length _ => length ≤ 8
  | .bmToData m => ∃ M, s.matrix? m = some M ∧ 8 ≤ M.cols
  | .bmMul a b => ∃ A B, s.matrix? a = some A ∧ s.matrix? b = some B ∧ A.cols = B.rows
  | .encode _ => True
  | .decode _ => True
  | .syndrome _ => True
  | .lookup _ => True
  | .correct _ _ => True
  | .extract _ => True
  | .hamInit => True

/-- In `s` every violated precondition of 60_exceptions.md R129 ends the operation with `stop` of that
precondition. BM.FROMDATA and BM.MUL allocate first, so for them the allocation must not fail (log entry 9). -/
def State.StopsOnViolations (s : State) (stop : Precondition → Out) : Prop :=
  (∀ v i V, s.vectors[v]? = some V → V.length ≤ i →
    exec (.bvSet v i) s = stop .bitIndex ∧
    exec (.bvClr v i) s = stop .bitIndex ∧
    (∀ b, exec (.bvXor v i b) s = stop .bitIndex) ∧
    exec (.bvGet v i) s = stop .bitIndex) ∧
  (∀ h r c M, s.matrices[h]? = some M → (M.rows ≤ r ∨ M.cols ≤ c) →
    exec (.bmSet (.inst h) r c) s = stop .cellInRange ∧
    exec (.bmClr (.inst h) r c) s = stop .cellInRange) ∧
  (∀ m r c M, s.matrix? m = some M → (M.rows ≤ r ∨ M.cols ≤ c) →
    exec (.bmGet m r c) s = stop .cellInRange) ∧
  (∀ m M, s.matrix? m = some M → M.cols < 8 → exec (.bmToData m) s = stop .eightColumns) ∧
  (∀ length byte, s.allocFails = false → 8 < length →
    exec (.bmFromData length byte) s = stop .fromDataLength) ∧
  (∀ a b A B, s.allocFails = false → s.matrix? a = some A → s.matrix? b = some B →
    A.cols ≠ B.rows → exec (.bmMul a b) s = stop .shapesMatch)

/-! ### Frames -/

/-- From `s` to `t` only what the block delivers (`result`, `dout`, `status`) may have changed. -/
structure OnlyDelivers (s t : State) : Prop where
  consts : t.consts = s.consts
  vectors : t.vectors = s.vectors
  matrices : t.matrices = s.matrices
  pending : t.pending = s.pending
  config : t.config = s.config
  draws : t.draws = s.draws

/-- From `s` to `t` only storage unit `u` of vector instance `v`, and what the block delivers, may have
changed; the vector keeps its length, every other unit reads as before, and every other instance is
untouched (40_bitvector.md R72; 10_state.md R23). -/
structure OnlyVectorUnit (s t : State) (v u : Nat) : Prop where
  consts : t.consts = s.consts
  count : t.vectors.length = s.vectors.length
  others : ∀ v', v' ≠ v → t.vectors[v']? = s.vectors[v']?
  length : (t.vectors[v]?).map BitVector.length = (s.vectors[v]?).map BitVector.length
  units : ∀ u', u' ≠ u →
    (t.vectors[v]?).map (·.memRead u') = (s.vectors[v]?).map (·.memRead u')
  matrices : t.matrices = s.matrices
  pending : t.pending = s.pending
  config : t.config = s.config
  draws : t.draws = s.draws

/-- The same for storage unit `u` of the backing vector of matrix instance `h`. -/
structure OnlyMatrixUnit (s t : State) (h u : Nat) : Prop where
  consts : t.consts = s.consts
  vectors : t.vectors = s.vectors
  count : t.matrices.length = s.matrices.length
  others : ∀ h', h' ≠ h → t.matrices[h']? = s.matrices[h']?
  shape : (t.matrices[h]?).map (fun M => (M.rows, M.cols, M.vec.length)) =
    (s.matrices[h]?).map (fun M => (M.rows, M.cols, M.vec.length))
  units : ∀ u', u' ≠ u →
    (t.matrices[h]?).map (·.vec.memRead u') = (s.matrices[h]?).map (·.vec.memRead u')
  pending : t.pending = s.pending
  config : t.config = s.config
  draws : t.draws = s.draws

/-- From `s` to `t` vector instance `V` is new, with the next handle (the handle's number is the model's
choice, log entry 2), and is what the block delivers; every earlier instance is untouched. -/
structure AddsVector (s t : State) (V : BitVector) : Prop where
  consts : t.consts = s.consts
  vectors : t.vectors = s.vectors ++ [V]
  matrices : t.matrices = s.matrices
  pending : t.pending = s.pending
  config : t.config = s.config
  result : t.result = .vector s.vectors.length

/-- From `s` to `t` matrix instance `M` is new, with the next handle (log entry 2), and is what the block
delivers. -/
structure AddsMatrix (s t : State) (M : BitMatrix) : Prop where
  consts : t.consts = s.consts
  vectors : t.vectors = s.vectors
  matrices : t.matrices = s.matrices ++ [M]
  pending : t.pending = s.pending
  config : t.config = s.config
  result : t.result = .matrix s.matrices.length

/-- A failed creation (60_exceptions.md R127): `absent` is delivered and "no state is changed". -/
structure DeliversAbsent (s t : State) : Prop where
  consts : t.consts = s.consts
  vectors : t.vectors = s.vectors
  matrices : t.matrices = s.matrices
  pending : t.pending = s.pending
  config : t.config = s.config
  result : t.result = .absent

/-- In `s` the operation `i` completes, delivers `r`, and changes nothing else; `dout` and `status` show
`r` if the operation is one of the ports' (10_state.md R26) and are `none` otherwise (the model's choice, log
entry 4). -/
def State.Performs (s : State) (i : Instr) (r : Result) : Prop :=
  ∃ t, exec i s = .next t ∧ OnlyDelivers s t ∧ t.result = r ∧ t.dout = r.dout ∧
    t.status = r.statusPort

/-- The vector instance an operation writes in place, if any (40_bitvector.md R72 to R74). -/
def writtenVector : Instr → Option Nat
  | .bvSet v _ => some v
  | .bvClr v _ => some v
  | .bvXor v _ _ => some v
  | _ => none

/-- The matrix instance an operation writes in place, if any (41_bitmatrix.md R82, R83). -/
def writtenMatrix : Instr → Option Nat
  | .bmSet (.inst h) _ _ => some h
  | .bmClr (.inst h) _ _ => some h
  | _ => none

/-! ### Words the claims use -/

/-- The reserved selectors (30_encoding.md R59): `0x05–0x0F`, `0x17–0x1F`, `0x26–0x2E`, `0x30–0xFF`. -/
abbrev reservedSel (sel : Byte) : Prop :=
  (0x05 ≤ sel.toNat ∧ sel.toNat ≤ 0x0F) ∨ (0x17 ≤ sel.toNat ∧ sel.toNat ≤ 0x1F) ∨
    (0x26 ≤ sel.toNat ∧ sel.toNat ≤ 0x2E) ∨ 0x30 ≤ sel.toNat

/-- How many bits of a byte are 1. -/
def weight (x : Byte) : Nat := (List.range 8).countP fun k => x.getLsbD k

/-- The uncorrectable syndrome indices (10_state.md R16). -/
def uncorrectableIndices : List Nibble := [3, 5, 6, 9, 10, 12, 15]

/-- The rows of `HT` as indices, row 0 first (10_state.md R15). -/
def rowIndices : List Nibble := [7, 11, 13, 14, 8, 4, 2, 1]

end Sys2Proof.Machine
end

