-- ==== Sys2Proof/Certificates/Slice0/Obligations.lean ====
section
/-! DEFINITION. What is claimed of the model: statements, none proved here. Each docstring names the
rule of spec/ it formalises. A claim over every state takes the invariant `State.Inv`, or the part of
it it needs, as a premise where it would fail only in states no run reaches;
`Obligations.StepKeepsInvariant` and `Obligations.ResetMeetsInvariant` state that invariant. -/

open Sys2Proof Sys2Proof.Machine

/-! ### Reset, invariant, step -/

/-- 70_reset_and_hazards.md R140 with its decision D10: the constants' values at reset, and they hold from
then on. -/
def Obligations.ConstantsHoldFromReset : Prop :=
  State.reset.consts.G.vec.units = [0x87, 0x4B, 0x2D, 0x1E] ∧
  State.reset.consts.HT.vec.units = [0x7B, 0xDE, 0x84, 0x21] ∧
  State.reset.consts.errTab.toList =
    [.noerr, .pos 7, .pos 6, .uncorr, .pos 5, .uncorr, .uncorr, .pos 0,
     .pos 4, .uncorr, .uncorr, .pos 1, .uncorr, .pos 2, .pos 3, .uncorr] ∧
  ∀ s t : State, s.consts = State.reset.consts → step s = .next t → t.consts = State.reset.consts

/-- 10_state.md R27, 70_reset_and_hazards.md R141, R145: no instance exists at reset and the ports show
nothing (decision D15; that they show `none` is the model's choice, log entry 4); 00_scope.md R5: the
parameters' defaults. -/
def Obligations.ResetHasNothingElse : Prop :=
  State.reset.vectors = [] ∧ State.reset.matrices = [] ∧ State.reset.dout = none ∧
  State.reset.status = none ∧ State.reset.config.allocCanFail = false ∧
  State.reset.config.undefTreatment = .refuse

/-- The invariant of 10_state.md R17, R21, R23 holds at reset. Its clause that the ports are what the last
result puts there, `none` at reset, is the model's choice, log entry 4; that storage is canonical is log entry
10, and that handles denote instances log entry 2. -/
def Obligations.ResetMeetsInvariant : Prop := State.reset.Inv

/-- Every step keeps the invariant: the constants are the read-only memory (R17), every vector has a
length of at least 1, its storage in canonical form and inside `ceil(length/8)` units, and zero pad bits
(R21), and every matrix has `rows*cols` bits (R23). The other clauses are the model's choices: the storage's
canonical form is log entry 10; that a delivered handle denotes an instance is log entry 2; that the ports are
kept in State as what the last result puts there, `none` after every operation that is not theirs, is log
entry 4 (R26 and decision D15 have no stored outputs). -/
def Obligations.StepKeepsInvariant : Prop :=
  ∀ s t : State, s.Inv → step s = .next t → t.Inv

/-- 10_state.md R11 ("The order of operations is the order in which the host presents them"): the operation
presented next is the one performed; the rest stays presented (log entry 3). -/
def Obligations.StepPerformsTheDecodedOperation : Prop :=
  ∀ (s : State) (q : Request) (rest : List Request) (i : Instr),
    s.pending = q :: rest → q.decode = .op i → step s = exec i { s with pending := rest }

/-- The model's choice (log entry 3): with nothing presented a step changes nothing. -/
def Obligations.NothingPresentedNothingHappens : Prop :=
  ∀ s : State, s.pending = [] → step s = .next s

/-- The model's choice (log entry 13): a table word placed by the host is the operation the next step
performs, with every typed operand zero. -/
def Obligations.PlacedTableWordIsPerformed : Prop :=
  ∀ (s : State) (w : Nat) (i : Instr), decodeTableWord 16 w = some i →
    step (s.withFetchWord 16 w) = exec i (s.withOperandFor (some i.op))

/-! ### Encoding -/

/-- 30_encoding.md R50 to R52: no operand is lost between an operation and its word with the typed
operands beside it. -/
def Obligations.DecodeOfEncodeIsTheOperation : Prop :=
  ∀ i : Instr, decodeWord (encode i).1 (encode i).2 = .op i

/-- 30_encoding.md R59, the spec's decision D14: which selectors are reserved, that the decoder says so and
the machine refuses them, and that the ports refuse every selector but two. -/
def Obligations.ReservedSelectorsAreRefused : Prop :=
  (∀ (w : OpWord) (x : TypedOperands), reservedSel w.sel →
    decodeWord w x = .reject (.reservedSelector w.sel)) ∧
  (∀ (w : OpWord) (x : TypedOperands), ¬ reservedSel w.sel →
    ∃ op : Op, op.sel = w.sel ∧ decodeWord w x = decodeOp op w.imm x) ∧
  (∀ (s : State) (w : OpWord) (x : TypedOperands), reservedSel w.sel →
    step (s.present (.unit w x)) = .refused (.rejected (.reservedSelector w.sel))) ∧
  (∀ (s : State) (sel din : Byte), sel ≠ 0x20 → sel ≠ 0x21 →
    step (s.present (.port sel din)) = .refused (.rejected (.notAPortOperation sel)))

/-- 30_encoding.md R60, the spec's decisions D4 and D5: codes never produced, and CORRECT with an entry code outside the three kinds. -/
def Obligations.ReservedDataCodesNeverProduced : Prop :=
  (∀ (i : Instr) (s t : State), exec i s = .next t →
    t.status ≠ some 0b11 ∧
    ∀ e, t.result = .entry e → e.code ∉ ([0b11000, 0b11001, 0b11010, 0b11011, 0b11100, 0b11101,
      0b11110, 0b11111, 0b00001, 0b00010, 0b00011, 0b00100, 0b00101, 0b00110, 0b00111, 0b10001,
      0b10010, 0b10011, 0b10100, 0b10101, 0b10110, 0b10111] : List (BitVec 5))) ∧
  (∀ e : Entry, Entry.ofCode e.code = some e) ∧
  (∀ (s : State) (w : OpWord) (x : TypedOperands), w.sel = 0x24 → (∀ e : Entry, e.code ≠ x.e) →
    step (s.present (.unit w x)) = .refused (.rejected (.reservedEntryCode x.e)))

/-- 30_encoding.md R61 (d), R53: `imm` bits an operation does not use do not change what is decoded. -/
def Obligations.UnusedImmBitsAreIgnored : Prop :=
  (∀ (sel imm imm' : Byte) (x : TypedOperands),
    sel ∈ ([0x00, 0x01, 0x02, 0x03, 0x04, 0x10, 0x11, 0x12, 0x13, 0x15, 0x16, 0x2F] : List Byte) →
    decodeWord (OpWord.make sel imm) x = decodeWord (OpWord.make sel imm') x) ∧
  (∀ (sel imm imm' : Byte) (x : TypedOperands), sel = 0x20 ∨ sel = 0x23 →
    (∀ k < 4, imm.getLsbD k = imm'.getLsbD k) →
    decodeWord (OpWord.make sel imm) x = decodeWord (OpWord.make sel imm') x)

/-- 95_test_vectors.md V18 (the spec's decision D3): words written out from 30_encoding.md R50 and R51. -/
def Obligations.WrittenOutWordsDecode : Prop :=
  decodeWord 0b0010000000001011 .zero = .op (.encode 0xB) ∧
  decodeWord 0b0010000011111011 .zero = .op (.encode 0xB) ∧
  decodeWord 0b0010000111010010 .zero = .op (.decode 0xD2) ∧
  decodeWord 0b0001010011010010 { length := 8 } = .op (.bmFromData 8 0xD2) ∧
  decodeWord 0b0000001100000000 { v := 1, i := 3, value := true } = .op (.bvXor 1 3 true) ∧
  decodeWord 0b0010111100000000 .zero = .op .hamInit

/-! ### BitVector operations -/

/-- 40_bitvector.md R71, section BV.CREATE: `absent` below length 1, else a new all-zero vector (that it is
delivered under the next handle is the model's choice, log entry 2; the allocation test is decision D9's). -/
def Obligations.BvCreateResult : Prop :=
  ∀ (length : Nat) (s : State),
    (length < 1 → ∃ t, exec (.bvCreate length) s = .next t ∧ DeliversAbsent s t) ∧
    (1 ≤ length → s.allocFails = false →
      ∃ t V, exec (.bvCreate length) s = .next t ∧ AddsVector s t V ∧ V.length = length ∧
        V.unitCount = (length + 7) / 8 ∧ (∀ u, V.memRead u = 0x00) ∧ ∀ i, V.bit i = false)

/-- 70_reset_and_hazards.md R142: a created vector or matrix is all zero, pad bits included. -/
def Obligations.CreatedInstancesAreZero : Prop :=
  (∀ (length : Nat) (s t : State) (v : Nat), exec (.bvCreate length) s = .next t →
    t.result = .vector v →
    ∃ V, t.vectors[v]? = some V ∧ V.length = length ∧
      V.units = List.replicate ((length + 7) / 8) 0x00) ∧
  (∀ (rows cols : Nat) (s t : State) (h : Nat), exec (.bmCreate rows cols) s = .next t →
    t.result = .matrix h →
    ∃ M, t.matrices[h]? = some M ∧ M.rows = rows ∧ M.cols = cols ∧
      M.vec.length = rows * cols ∧ M.vec.units = List.replicate ((rows * cols + 7) / 8) 0x00)

/-- 20_memory.md R31: where bit `i` lives; the last clause, bit 9 of a vector of length 12, is the spec's own
inference ("derived: from this rule"). -/
def Obligations.BitsArePackedMsbFirst : Prop :=
  (∀ (V : BitVector) (i : Nat), V.bit i = ((V.memRead (i / 8) >>> (7 - i % 8)) &&& 1#8 == 1#8)) ∧
  (∀ (s : State) (v i : Nat) (V : BitVector), s.vectors[v]? = some V → V.Good → i < V.length →
    (∃ t, exec (.bvSet v i) s = .next t ∧ OnlyVectorUnit s t v (i / 8) ∧
      (t.vectors[v]?).map (·.memRead (i / 8)) = some (V.memRead (i / 8) ||| (1#8 <<< (7 - i % 8)))) ∧
    (∃ t, exec (.bvClr v i) s = .next t ∧ OnlyVectorUnit s t v (i / 8) ∧
      (t.vectors[v]?).map (·.memRead (i / 8)) =
        some (V.memRead (i / 8) &&& ~~~(1#8 <<< (7 - i % 8))))) ∧
  (∀ V : BitVector, V.bit 0 = (V.memRead 0).getLsbD 7 ∧ V.bit 7 = (V.memRead 0).getLsbD 0 ∧
    V.bit 8 = (V.memRead 1).getLsbD 7) ∧
  ((BitVector.zero 12).setBit 9).units = [0x00, 0x40]

/-- 40_bitvector.md R72, section BV.SET: bit `i` becomes 1, no other bit and no other unit changes. That the
operation delivers the handle it was given is log entry 2; that the ports show `none` after it is the
model's choice, log entry 4. -/
def Obligations.BvSetResult : Prop :=
  ∀ (s : State) (v i : Nat) (V : BitVector), s.vectors[v]? = some V → V.Good → i < V.length →
    ∃ t V', exec (.bvSet v i) s = .next t ∧ t.vectors[v]? = some V' ∧
      (∀ j, V'.bit j = if j = i then true else V.bit j) ∧
      OnlyVectorUnit s t v (unitOf i) ∧ t.result = .vector v ∧ t.dout = none ∧ t.status = none

/-- 40_bitvector.md R73, section BV.CLR: bit `i` becomes 0, no other bit and no other unit changes. That the
operation delivers the handle it was given is log entry 2; that the ports show `none` after it is the
model's choice, log entry 4. -/
def Obligations.BvClrResult : Prop :=
  ∀ (s : State) (v i : Nat) (V : BitVector), s.vectors[v]? = some V → V.Good → i < V.length →
    ∃ t V', exec (.bvClr v i) s = .next t ∧ t.vectors[v]? = some V' ∧
      (∀ j, V'.bit j = if j = i then false else V.bit j) ∧
      OnlyVectorUnit s t v (unitOf i) ∧ t.result = .vector v ∧ t.dout = none ∧ t.status = none

/-- 40_bitvector.md R74, section BV.XOR: `value` into bit `i`, no other bit and no other unit changes. That the
operation delivers the handle it was given is log entry 2; that the ports show `none` after it is the
model's choice, log entry 4. -/
def Obligations.BvXorResult : Prop :=
  ∀ (s : State) (v i : Nat) (b : Bit) (V : BitVector), s.vectors[v]? = some V → V.Good →
    i < V.length →
    ∃ t V', exec (.bvXor v i b) s = .next t ∧ t.vectors[v]? = some V' ∧
      (∀ j, V'.bit j = if j = i then V.bit i ^^ b else V.bit j) ∧
      OnlyVectorUnit s t v (unitOf i) ∧ t.result = .vector v ∧ t.dout = none ∧ t.status = none

/-- 40_bitvector.md R75, section BV.GET: the bit at position `7 - (i mod 8)` of unit `i div 8`; nothing
is written. The ports show `none` after it (the model's choice, log entry 4). -/
def Obligations.BvGetResult : Prop :=
  ∀ (s : State) (v i : Nat) (V : BitVector), s.vectors[v]? = some V → i < V.length →
    s.Performs (.bvGet v i) (.bit ((V.memRead (i / 8)).getLsbD (7 - i % 8)))

/-- 40_bitvector.md R76: the laws of set, clear, exclusive or and get, as sequences of operations; the
"other bit unchanged" halves and the BV.XOR lines are the spec's own inference ("derived: from rules R72 to
R75"). The ports show `none` after each (the model's choice, log entry 4). -/
def Obligations.BitVectorLaws : Prop :=
  (∀ (s : State) (v i j : Nat) (b : Bit) (V : BitVector), s.vectors[v]? = some V → V.Good →
    i < V.length → j < V.length → j ≠ i →
    (∃ t t', exec (.bvSet v i) s = .next t ∧ t.Performs (.bvGet v i) (.bit true) ∧
      (∃ x, s.Performs (.bvGet v j) (.bit x) ∧ t.Performs (.bvGet v j) (.bit x)) ∧
      exec (.bvSet v i) t = .next t' ∧ t'.vectors = t.vectors) ∧
    (∃ t t', exec (.bvClr v i) s = .next t ∧ t.Performs (.bvGet v i) (.bit false) ∧
      (∃ x, s.Performs (.bvGet v j) (.bit x) ∧ t.Performs (.bvGet v j) (.bit x)) ∧
      exec (.bvClr v i) t = .next t' ∧ t'.vectors = t.vectors) ∧
    (∃ t, exec (.bvXor v i b) s = .next t ∧
      (∃ x, s.Performs (.bvGet v i) (.bit x) ∧ t.Performs (.bvGet v i) (.bit (x ^^ b))) ∧
      (∃ x, s.Performs (.bvGet v j) (.bit x) ∧ t.Performs (.bvGet v j) (.bit x))) ∧
    (∃ t t', exec (.bvXor v i true) s = .next t ∧ exec (.bvXor v i true) t = .next t' ∧
      t'.vectors = s.vectors) ∧
    (∃ t, exec (.bvXor v i false) s = .next t ∧ t.vectors = s.vectors)) ∧
  (∀ V W : BitVector, V.Good → W.Good →
    ((V.length = W.length ∧ V.units = W.units) ↔ V = W) ∧
    ((V.length = W.length ∧ V.units = W.units) ↔
      (V.length = W.length ∧ ∀ i < V.length, V.bit i = W.bit i)))

/-! ### BitMatrix operations -/

/-- 41_bitmatrix.md R81, section BM.CREATE: `absent` without rows or columns, else a new all-zero matrix (that
it is delivered under the next handle is the model's choice, log entry 2; the allocation test is decision
D9's). -/
def Obligations.BmCreateResult : Prop :=
  ∀ (rows cols : Nat) (s : State),
    (rows < 1 ∨ cols < 1 → ∃ t, exec (.bmCreate rows cols) s = .next t ∧ DeliversAbsent s t) ∧
    (1 ≤ rows → 1 ≤ cols → s.allocFails = false →
      ∃ t M, exec (.bmCreate rows cols) s = .next t ∧ AddsMatrix s t M ∧ M.rows = rows ∧
        M.cols = cols ∧ M.vec.length = rows * cols ∧ (∀ u, M.vec.memRead u = 0x00) ∧
        ∀ r c, M.cell r c = false)

/-- 41_bitmatrix.md R82, section BM.SET: one cell becomes 1; every other cell of the shape, every other
bit of the backing vector, every other storage unit and every other instance is unchanged. That the
operation delivers the handle it was given is log entry 2; that the ports show `none` after it is the
model's choice, log entry 4. -/
def Obligations.BmSetResult : Prop :=
  ∀ (s : State) (h r c : Nat) (M : BitMatrix), s.matrices[h]? = some M → M.Good →
    r < M.rows → c < M.cols →
    ∃ t M', exec (.bmSet (.inst h) r c) s = .next t ∧ t.matrices[h]? = some M' ∧
      (∀ r' < M.rows, ∀ c' < M.cols,
        M'.cell r' c' = if r' = r ∧ c' = c then true else M.cell r' c') ∧
      (∀ j, M'.vec.bit j = if j = r * M.cols + c then true else M.vec.bit j) ∧
      OnlyMatrixUnit s t h ((r * M.cols + c) / 8) ∧ t.result = .matrix h ∧ t.dout = none ∧
      t.status = none

/-- 41_bitmatrix.md R83, section BM.CLR: one cell becomes 0, all else as for BM.SET. That the
operation delivers the handle it was given is log entry 2; that the ports show `none` after it is the
model's choice, log entry 4. -/
def Obligations.BmClrResult : Prop :=
  ∀ (s : State) (h r c : Nat) (M : BitMatrix), s.matrices[h]? = some M → M.Good →
    r < M.rows → c < M.cols →
    ∃ t M', exec (.bmClr (.inst h) r c) s = .next t ∧ t.matrices[h]? = some M' ∧
      (∀ r' < M.rows, ∀ c' < M.cols,
        M'.cell r' c' = if r' = r ∧ c' = c then false else M.cell r' c') ∧
      (∀ j, M'.vec.bit j = if j = r * M.cols + c then false else M.vec.bit j) ∧
      OnlyMatrixUnit s t h ((r * M.cols + c) / 8) ∧ t.result = .matrix h ∧ t.dout = none ∧
      t.status = none

/-- 41_bitmatrix.md R84, section BM.GET, of a created instance and of the constants `G` and `HT`. The
ports show `none` after it (the model's choice, log entry 4). -/
def Obligations.BmGetResult : Prop :=
  ∀ (s : State) (m : MatRef) (r c : Nat) (M : BitMatrix), s.matrix? m = some M →
    r < M.rows → c < M.cols →
    s.Performs (.bmGet m r c)
      (.bit ((M.vec.memRead ((r * M.cols + c) / 8)).getLsbD (7 - (r * M.cols + c) % 8)))

/-- 41_bitmatrix.md R85, section BM.FROMDATA: `absent` below length 1, else column `i` is bit `i` of
the byte, LSB-first (that it is delivered under the next handle is the model's choice, log entry 2). -/
def Obligations.BmFromDataResult : Prop :=
  ∀ (length : Nat) (byte : Byte) (s : State),
    (length < 1 → ∃ t, exec (.bmFromData length byte) s = .next t ∧ DeliversAbsent s t) ∧
    (1 ≤ length → length ≤ 8 → s.allocFails = false →
      ∃ t M, exec (.bmFromData length byte) s = .next t ∧ AddsMatrix s t M ∧ M.Good ∧
        M.rows = 1 ∧ M.cols = length ∧ ∀ i < length, M.cell 0 i = byte.getLsbD i)

/-- 41_bitmatrix.md R86, section BM.TODATA: MSB-first over the first 8 columns of row 0; nothing is
written. The ports show `none` after it (the model's choice, log entry 4). -/
def Obligations.BmToDataResult : Prop :=
  ∀ (s : State) (m : MatRef) (M : BitMatrix), s.matrix? m = some M → 8 ≤ M.cols →
    ∃ x : Byte, s.Performs (.bmToData m) (.byte x) ∧
      ∀ i < 8, x.getLsbD (7 - i) = M.cell 0 i

/-- 41_bitmatrix.md R90: `to_data(from_data(byte, 8))` is the bit reversal; that `bitrev8` is an involution is
the spec's own inference ("derived: from this rule"). The ports show `none` after BM.TODATA (the model's
choice, log entry 4). -/
def Obligations.ConversionAsymmetry : Prop :=
  (∀ (s : State) (x : Byte), s.allocFails = false →
    ∃ t h, exec (.bmFromData 8 x) s = .next t ∧ t.result = .matrix h ∧
      t.Performs (.bmToData (.inst h)) (.byte (bitrev8 x))) ∧
  (∀ (x : Byte) (i : Nat), i < 8 → (bitrev8 x).getLsbD (7 - i) = x.getLsbD i) ∧
  (∀ x : Byte, bitrev8 (bitrev8 x) = x) ∧
  bitrev8 0x01 = 0x80 ∧ bitrev8 0xD2 = 0x4B ∧ bitrev8 0x0F = 0xF0 ∧ bitrev8 0xA5 = 0xA5 ∧
  bitrev8 0x13 = 0xC8

/-- 41_bitmatrix.md R88, section BM.MUL: a new matrix whose entry `(i,j)` is the exclusive or of the
products; `A` and `B` are untouched (that it is delivered under the next handle is the model's choice, log
entry 2). -/
def Obligations.BmMulResult : Prop :=
  ∀ (s : State) (a b : MatRef) (A B : BitMatrix), s.matrix? a = some A → s.matrix? b = some B →
    A.Good → B.Good → A.cols = B.rows → s.allocFails = false →
    ∃ t C, exec (.bmMul a b) s = .next t ∧ AddsMatrix s t C ∧ C.Good ∧ C.rows = A.rows ∧
      C.cols = B.cols ∧
      ∀ i < A.rows, ∀ j < B.cols, C.cell i j = xorSum A.cols (fun k => A.cell i k && B.cell k j)

/-- 41_bitmatrix.md R89 (b), (c), the spec's own inference ("derived: from rule R88"): the product of a one-row matrix selects rows, and the product is
linear in the left and in the right argument, cell by cell. -/
def Obligations.MultiplierIsLinear : Prop :=
  (∀ A B C : BitMatrix, A.Good → B.Good → A.rows = 1 → A.cols = B.rows →
    BitMatrix.mul A B = some C → ∀ j < B.cols,
      C.cell 0 j = xorSum B.rows (fun k => if A.cell 0 k then B.cell k j else false)) ∧
  (∀ A A' A'' B P P' P'' : BitMatrix, A.Good → A'.Good → A''.Good → B.Good → A.cols = B.rows →
    A'.rows = A.rows → A''.rows = A.rows → A'.cols = A.cols → A''.cols = A.cols →
    (∀ i < A.rows, ∀ k < A.cols, A''.cell i k = (A.cell i k ^^ A'.cell i k)) →
    BitMatrix.mul A B = some P → BitMatrix.mul A' B = some P' → BitMatrix.mul A'' B = some P'' →
    ∀ i < A.rows, ∀ j < B.cols, P''.cell i j = (P.cell i j ^^ P'.cell i j)) ∧
  (∀ A B B' B'' P P' P'' : BitMatrix, A.Good → B.Good → B'.Good → B''.Good → A.cols = B.rows →
    B'.rows = B.rows → B''.rows = B.rows → B'.cols = B.cols → B''.cols = B.cols →
    (∀ k < B.rows, ∀ j < B.cols, B''.cell k j = (B.cell k j ^^ B'.cell k j)) →
    BitMatrix.mul A B = some P → BitMatrix.mul A B' = some P' → BitMatrix.mul A B'' = some P'' →
    ∀ i < A.rows, ∀ j < B.cols, P''.cell i j = (P.cell i j ^^ P'.cell i j))

/-- 41_bitmatrix.md R89 (d), 10_state.md R15, in both the spec's own inference: `G · HT` is the 4×4 zero
matrix (that it is delivered under the next handle is the model's choice, log entry 2). -/
def Obligations.GeneratorTimesCheckIsZero : Prop :=
  ∀ s : State, s.consts = Constants.rom → s.allocFails = false →
    ∃ t, exec (.bmMul .g .ht) s = .next t ∧ AddsMatrix s t (BitMatrix.zero 4 4)

/-! ### Codec -/

/-- 42_codec_encoder.md R95, 10_state.md R12 to R16: what HAM.INIT leaves, in every state; on a block
whose constants are in place it changes nothing but what is delivered. That HAM.INIT is a step and may be
repeated is the model's choice, log entry 11; that the ports show `none` after it is log entry 4. -/
def Obligations.HamInitBuildsTheConstants : Prop :=
  ∀ s : State, ∃ t, exec .hamInit s = .next t ∧
    t.consts.G.rows = 4 ∧ t.consts.G.cols = 8 ∧ t.consts.HT.rows = 8 ∧ t.consts.HT.cols = 4 ∧
    (∀ r < 4, ∀ c < 8, t.consts.G.cell r c = true ↔ (c < 4 ∧ r = c) ∨ (4 ≤ c ∧ r ≠ c - 4)) ∧
    (∀ r < 8, ∀ c < 4, t.consts.HT.cell r c = true ↔ (r < 4 ∧ r ≠ c) ∨ (4 ≤ r ∧ c = r - 4)) ∧
    t.consts.G.vec.units = [0x87, 0x4B, 0x2D, 0x1E] ∧
    t.consts.HT.vec.units = [0x7B, 0xDE, 0x84, 0x21] ∧
    t.consts.errTab = State.reset.consts.errTab ∧
    t.vectors = s.vectors ∧ t.matrices = s.matrices ∧ t.pending = s.pending ∧
    t.config = s.config ∧ t.draws = s.draws ∧ t.result = .constants t.consts ∧
    t.dout = none ∧ t.status = none ∧
    (s.consts = State.reset.consts → OnlyDelivers s t)

/-- 10_state.md R17, 70_reset_and_hazards.md R149 (a): no operation changes the constants; BM.SET and
BM.CLR of them are refused (the refusal is the model's choice, log entry 8). -/
def Obligations.ConstantsAreImmutable : Prop :=
  (∀ (i : Instr) (s t : State), s.consts = State.reset.consts → exec i s = .next t →
    t.consts = s.consts) ∧
  (∀ (s : State) (r c : Nat), exec (.bmSet .g r c) s = .refused .constantWrite ∧
    exec (.bmSet .ht r c) s = .refused .constantWrite ∧
    exec (.bmClr .g r c) s = .refused .constantWrite ∧
    exec (.bmClr .ht r c) s = .refused .constantWrite)

/-- 42_codec_encoder.md R97, the spec's own inference ("derived: from rule R96"): ENCODE in closed form, the
codeword at `dout`, `OK` at `status` (10_state.md R26, decision D2), and nothing else changed. -/
def Obligations.EncodeClosedForm : Prop :=
  ∀ (s : State) (n : Nibble), s.consts = Constants.rom →
    ∃ t w, exec (.encode n) s = .next t ∧ OnlyDelivers s t ∧ t.result = .codeword w ∧
      t.dout = some w ∧ t.status = some 0b00 ∧
      w.getLsbD 7 = n.getLsbD 0 ∧ w.getLsbD 6 = n.getLsbD 1 ∧
      w.getLsbD 5 = n.getLsbD 2 ∧ w.getLsbD 4 = n.getLsbD 3 ∧
      w.getLsbD 3 = (n.getLsbD 1 ^^ n.getLsbD 2 ^^ n.getLsbD 3) ∧
      w.getLsbD 2 = (n.getLsbD 0 ^^ n.getLsbD 2 ^^ n.getLsbD 3) ∧
      w.getLsbD 1 = (n.getLsbD 0 ^^ n.getLsbD 1 ^^ n.getLsbD 3) ∧
      w.getLsbD 0 = (n.getLsbD 0 ^^ n.getLsbD 1 ^^ n.getLsbD 2) ∧
      w = (if n.getLsbD 0 then 0x87 else 0) ^^^ (if n.getLsbD 1 then 0x4B else 0) ^^^
        (if n.getLsbD 2 then 0x2D else 0) ^^^ (if n.getLsbD 3 then 0x1E else 0) ∧
      (∀ j < 4, w.getLsbD (3 - j) = (xorSum 4 (fun k => n.getLsbD k) ^^ n.getLsbD j))

/-- 42_codec_encoder.md R98, the spec's own inference ("derived: from rule R96"): the complete ENCODE table. -/
def Obligations.EncodeTable : Prop :=
  (∀ (s : State) (n : Nibble), s.consts = Constants.rom →
    s.Performs (.encode n) (.codeword
      (#v[(0x00 : Byte), 0x87, 0x4B, 0xCC, 0x2D, 0xAA, 0x66, 0xE1,
          0x1E, 0x99, 0x55, 0xD2, 0x33, 0xB4, 0x78, 0xFF][n.toNat]'n.isLt))) ∧
  (∀ (s : State) (n : Nibble) (w : Byte), s.consts = Constants.rom →
    s.Performs (.encode n) (.codeword w) → ∀ k < 4, w.getLsbD (7 - k) = n.getLsbD k)

/-- 42_codec_encoder.md R99, the spec's own inference ("derived: from rule R98"): the code is linear, has 16 distinct words of weight 0, 4 (fourteen of them)
or 8 (`0xFF`), any two of them differ in at least 4 places, and it is closed under bit reversal. -/
def Obligations.CodeProperties : Prop :=
  ∀ s : State, s.consts = Constants.rom →
    ∃ enc : Nibble → Byte, (∀ n, s.Performs (.encode n) (.codeword (enc n))) ∧
      (∀ a b, enc (a ^^^ b) = enc a ^^^ enc b) ∧
      (∀ a b, enc a = enc b → a = b) ∧
      (∀ a, enc a ≠ 0 → weight (enc a) = 4 ∨ weight (enc a) = 8) ∧
      ((List.range 16).countP (fun k => weight (enc (BitVec.ofNat 4 k)) == 4)) = 14 ∧
      (∀ a, weight (enc a) = 8 → enc a = 0xFF) ∧
      (∀ a b, a ≠ b → 4 ≤ weight (enc a ^^^ enc b)) ∧
      (∀ a, ∃ b, enc b = bitrev8 (enc a)) ∧ bitrev8 0xD2 = 0x4B

/-- 43_decoder.md R100, R101, section SYNDROME: the index in closed form (the spec's own inference); a single bit gives the row of
`HT`; SYNDROME is linear (95_test_vectors.md V9). The ports show `none` after it (the model's choice, log
entry 4). -/
def Obligations.SyndromeResult : Prop :=
  (∀ (s : State) (w : Byte), s.consts = Constants.rom →
    ∃ idx : Nibble, s.Performs (.syndrome w) (.index idx) ∧
      idx.getLsbD 3 = (w.getLsbD 1 ^^ w.getLsbD 2 ^^ w.getLsbD 3 ^^ w.getLsbD 4) ∧
      idx.getLsbD 2 = (w.getLsbD 0 ^^ w.getLsbD 2 ^^ w.getLsbD 3 ^^ w.getLsbD 5) ∧
      idx.getLsbD 1 = (w.getLsbD 0 ^^ w.getLsbD 1 ^^ w.getLsbD 3 ^^ w.getLsbD 6) ∧
      idx.getLsbD 0 = (w.getLsbD 0 ^^ w.getLsbD 1 ^^ w.getLsbD 2 ^^ w.getLsbD 7)) ∧
  (∀ (s : State) (k : Fin 8), s.consts = Constants.rom →
    s.Performs (.syndrome (1#8 <<< k.val)) (.index (rowIndices.getD k 0))) ∧
  (∀ (s : State) (a b : Byte) (x y : Nibble), s.consts = Constants.rom →
    s.Performs (.syndrome a) (.index x) → s.Performs (.syndrome b) (.index y) →
    s.Performs (.syndrome (a ^^^ b)) (.index (x ^^^ y)))

/-- 43_decoder.md R102, section LOOKUP: the table, written out. The ports show `none` after it (the model's
choice, log entry 4). -/
def Obligations.LookupResult : Prop :=
  ∀ s : State, s.consts = Constants.rom →
    s.Performs (.lookup 0) (.entry .noerr) ∧
    (∀ idx ∈ uncorrectableIndices, s.Performs (.lookup idx) (.entry .uncorr)) ∧
    ∀ p : Fin 8, s.Performs (.lookup (rowIndices.getD p 0)) (.entry (.pos p))

/-- 43_decoder.md R103, section CORRECT: the named bit is flipped, nothing otherwise (that this is
`w ^ (1 << p)` is the spec's own inference). The ports show `none` after it (log entries 4 and 18). -/
def Obligations.CorrectResult : Prop :=
  ∀ (s : State) (w : Byte),
    s.Performs (.correct .noerr w) (.corrected .ok w) ∧
    s.Performs (.correct .uncorr w) (.corrected .err w) ∧
    ∀ p : Fin 8, s.Performs (.correct (.pos p) w) (.corrected .corrected (w ^^^ (1#8 <<< p.val)))

/-- 43_decoder.md R104, section EXTRACT: `bitrev8` masked to 4 bits, and the nibble's bits, which are the
spec's own inference ("derived: from 41_bitmatrix.md rule R90"). The ports show `none` after it (the model's
choice, log entry 4). -/
def Obligations.ExtractResult : Prop :=
  ∀ (s : State) (w : Byte), ∃ n : Nibble, s.Performs (.extract w) (.nibble n) ∧
    n = (bitrev8 w &&& 0x0F).setWidth 4 ∧
    n.getLsbD 0 = w.getLsbD 7 ∧ n.getLsbD 1 = w.getLsbD 6 ∧ n.getLsbD 2 = w.getLsbD 5 ∧
    n.getLsbD 3 = w.getLsbD 4

/-- 43_decoder.md R105, "As a composition": DECODE is SYNDROME, LOOKUP, CORRECT and EXTRACT in turn, in
every state. The ports show `none` after the four parts (the model's choice, log entry 4). -/
def Obligations.DecodeIsTheComposition : Prop :=
  ∀ (s : State) (w : Byte), ∃ idx e st w' n,
    s.Performs (.syndrome w) (.index idx) ∧ s.Performs (.lookup idx) (.entry e) ∧
    s.Performs (.correct e w) (.corrected st w') ∧ s.Performs (.extract w') (.nibble n) ∧
    s.Performs (.decode w) (.decoded st n)

/-- 43_decoder.md R106, the spec's own inference ("derived: from rules R100 to R105"): DECODE in closed form, with what the ports show (10_state.md R26, D8). -/
def Obligations.DecodeClosedForm : Prop :=
  ∀ (s : State) (w : Byte), s.consts = Constants.rom →
    ∃ (t : State) (idx : Nibble) (e : Entry) (w' : Byte) (st : Status) (n : Nibble),
      exec (.decode w) s = .next t ∧ OnlyDelivers s t ∧ t.result = .decoded st n ∧
      t.dout = some (0#4 ++ n) ∧ t.status = some st.code ∧
      idx.toNat = 8 * (w.getLsbD 1 ^^ w.getLsbD 2 ^^ w.getLsbD 3 ^^ w.getLsbD 4).toNat +
        4 * (w.getLsbD 0 ^^ w.getLsbD 2 ^^ w.getLsbD 3 ^^ w.getLsbD 5).toNat +
        2 * (w.getLsbD 0 ^^ w.getLsbD 1 ^^ w.getLsbD 3 ^^ w.getLsbD 6).toNat +
        (w.getLsbD 0 ^^ w.getLsbD 1 ^^ w.getLsbD 2 ^^ w.getLsbD 7).toNat ∧
      e = s.consts.errTab.toList.getD idx.toNat .uncorr ∧
      ((∃ p : Fin 8, e = .pos p ∧ w' = w ^^^ (1#8 <<< p.val)) ∨
        ((∀ p : Fin 8, e ≠ .pos p) ∧ w' = w)) ∧
      (st = .ok ↔ e = .noerr) ∧ (st = .corrected ↔ ∃ p, e = .pos p) ∧ (st = .err ↔ e = .uncorr) ∧
      n.getLsbD 3 = w'.getLsbD 4 ∧ n.getLsbD 2 = w'.getLsbD 5 ∧ n.getLsbD 1 = w'.getLsbD 6 ∧
      n.getLsbD 0 = w'.getLsbD 7

/-- 43_decoder.md R107: decoding an encoded nibble gives it back, with status `OK`. -/
def Obligations.DecodeOfEncodeRoundTrip : Prop :=
  ∀ (s : State) (v : Nibble), s.consts = Constants.rom →
    ∃ t w, exec (.encode v) s = .next t ∧ t.dout = some w ∧
      t.Performs (.decode w) (.decoded .ok v)

/-- 43_decoder.md R108: any one flipped bit of a codeword is named, corrected, and reported (the last is the
source's; what SYNDROME, LOOKUP and CORRECT give is the spec's own inference). The ports show `none` after
these three (the model's choice, log entry 4). -/
def Obligations.SingleBitErrorsAreCorrected : Prop :=
  ∀ (s : State) (v : Nibble) (p : Fin 8), s.consts = Constants.rom →
    ∃ c idx, s.Performs (.encode v) (.codeword c) ∧
      s.Performs (.syndrome (c ^^^ (1#8 <<< p.val))) (.index idx) ∧
      idx = rowIndices.getD p 0 ∧
      s.Performs (.lookup idx) (.entry (.pos p)) ∧
      s.Performs (.correct (.pos p) (c ^^^ (1#8 <<< p.val))) (.corrected .corrected c) ∧
      s.Performs (.decode (c ^^^ (1#8 <<< p.val))) (.decoded .corrected v)

/-- 43_decoder.md R109 (its table is the spec's own inference, "counted over all 16 codewords"): which inputs report `ERR` and `CORRECTED`, what two, three and four flipped bits
give, and how many inputs give each status. The ports show `none` after SYNDROME, LOOKUP and EXTRACT (the
model's choice, log entry 4). -/
def Obligations.DetectionByFlippedBits : Prop :=
  ∀ s : State, s.consts = Constants.rom →
    ∃ (syn : Byte → Nibble) (st : Byte → Status) (nib : Byte → Nibble) (enc : Nibble → Byte),
      (∀ w, s.Performs (.syndrome w) (.index (syn w))) ∧
      (∀ w, s.Performs (.decode w) (.decoded (st w) (nib w))) ∧
      (∀ v, s.Performs (.encode v) (.codeword (enc v))) ∧
      (∀ w, (syn w ∈ uncorrectableIndices → st w = .err) ∧ (syn w = 0 → st w = .ok) ∧
        (syn w ∉ uncorrectableIndices → syn w ≠ 0 → st w = .corrected ∧
          ∃ p : Fin 8, rowIndices.getD p 0 = syn w ∧ s.Performs (.lookup (syn w)) (.entry (.pos p)) ∧
            s.Performs (.extract (w ^^^ (1#8 <<< p.val))) (.nibble (nib w)))) ∧
      (∀ v, syn (enc v) = 0 ∧ st (enc v) = .ok ∧ nib (enc v) = v) ∧
      (∀ v E, weight E = 1 → syn (enc v ^^^ E) ∈ rowIndices ∧ st (enc v ^^^ E) = .corrected ∧
        nib (enc v ^^^ E) = v) ∧
      (∀ v E, weight E = 2 → syn (enc v ^^^ E) ∈ uncorrectableIndices ∧ st (enc v ^^^ E) = .err ∧
        s.Performs (.extract (enc v ^^^ E)) (.nibble (nib (enc v ^^^ E))) ∧
        (nib (enc v ^^^ E) = v ↔ E &&& 0xF0 = 0)) ∧
      (∀ v E, weight E = 3 → syn (enc v ^^^ E) ∈ rowIndices ∧ st (enc v ^^^ E) = .corrected ∧
        nib (enc v ^^^ E) ≠ v ∧
        ∃ p : Fin 8, enc (nib (enc v ^^^ E)) = enc v ^^^ E ^^^ (1#8 <<< p.val) ∧
          E.getLsbD p = false) ∧
      (∀ v E, weight E = 4 →
        ((∃ x, enc x = E) → syn (enc v ^^^ E) = 0 ∧ st (enc v ^^^ E) = .ok ∧
          nib (enc v ^^^ E) ≠ v) ∧
        ((∀ x, enc x ≠ E) → syn (enc v ^^^ E) ∈ uncorrectableIndices ∧ st (enc v ^^^ E) = .err ∧
          (nib (enc v ^^^ E) = v ↔ E &&& 0xF0 = 0))) ∧
      (List.range 256).countP (fun k => st (BitVec.ofNat 8 k) == .ok) = 16 ∧
      (List.range 256).countP (fun k => st (BitVec.ofNat 8 k) == .corrected) = 128 ∧
      (List.range 256).countP (fun k => st (BitVec.ofNat 8 k) == .err) = 112

/-- 43_decoder.md R110: the nibble on `ERR` is extracted from the codeword exactly as received. The
ports show `none` after EXTRACT, SYNDROME and LOOKUP (the model's choice, log entry 4). -/
def Obligations.NibbleOnErrIsAsReceived : Prop :=
  ∀ s : State, s.consts = Constants.rom →
    (∀ (w : Byte) (n : Nibble), s.Performs (.decode w) (.decoded .err n) →
      s.Performs (.extract w) (.nibble n) ∧ n.getLsbD 3 = w.getLsbD 4 ∧
      n.getLsbD 2 = w.getLsbD 5 ∧ n.getLsbD 1 = w.getLsbD 6 ∧ n.getLsbD 0 = w.getLsbD 7) ∧
    s.Performs (.syndrome 0xD1) (.index 12) ∧ s.Performs (.lookup 12) (.entry .uncorr) ∧
    s.Performs (.decode 0xD1) (.decoded .err 0xB) ∧
    s.Performs (.syndrome 0x12) (.index 3) ∧ s.Performs (.decode 0x12) (.decoded .err 0x8)

/-- 60_exceptions.md R128: DECODE completes on every byte in every state, whatever its status; what it
delivered changes nothing for the next operation. -/
def Obligations.ErrStatusIsAResult : Prop :=
  ∀ (s : State) (w : Byte), ∃ t st n, exec (.decode w) s = .next t ∧ t.result = .decoded st n ∧
    t.pending = s.pending ∧ ∀ i : Instr, exec i t = exec i s

/-! ### Whole-machine rules -/

/-- 10_state.md R26, D15; 70_reset_and_hazards.md R143: no operation depends on what was delivered
before; nothing is carried over but the instances and the constants. -/
def Obligations.OutcomeIgnoresEarlierOutputs : Prop :=
  ∀ (i : Instr) (s : State) (r : Result) (d : Option Byte) (p : Option (BitVec 2)),
    exec i { s with result := r, dout := d, status := p } = exec i s

/-- 10_state.md R26 (decisions D2, D8, D15): the ports' outputs are a function of the present inputs and the constants alone. -/
def Obligations.PortsAreAFunctionOfTheInputs : Prop :=
  ∀ (s : State) (sel din : Byte),
    (∀ d p, portFunction s.consts sel din = some (d, p) →
      ∃ t, step (s.present (.port sel din)) = .next t ∧ t.dout = some d ∧ t.status = some p ∧
        OnlyDelivers s t) ∧
    (portFunction s.consts sel din = none →
      step (s.present (.port sel din)) = .refused (.rejected (.notAPortOperation sel))) ∧
    (portFunction s.consts sel din = none ↔ sel ≠ 0x20 ∧ sel ≠ 0x21)

/-- 60_exceptions.md R129 with its decision D11: every violated precondition is refused under the default
treatment, and none can be reached through ENCODE or DECODE. Only BM.FROMDATA and BM.MUL, which allocate,
need that their allocation does not fail (`Obligations.FailedCreationComesFirst` is about the rest). -/
def Obligations.ViolatedPreconditionsAreRefused : Prop :=
  ∀ s : State, s.config.undefTreatment = .refuse →
    s.StopsOnViolations (fun p => .refused (.undefinedBehaviour p)) ∧
    (∀ n, ∃ t, exec (.encode n) s = .next t) ∧ ∀ w, ∃ t, exec (.decode w) s = .next t

/-- 00_scope.md R5 `UNDEF_TREATMENT`, D11 (the alternative to `refuse` is the model's, log entry 6): with
the parameter at `refuse` no step faults; with it at `fault` no precondition is refused, and every violated
precondition of 60_exceptions.md R129 faults by its name. -/
def Obligations.UndefTreatmentDecidesTheStop : Prop :=
  (∀ (s : State) (f : Fault), s.config.undefTreatment = .refuse → step s ≠ .fault f) ∧
  (∀ (s : State) (p : Precondition), s.config.undefTreatment = .fault →
    step s ≠ .refused (.undefinedBehaviour p)) ∧
  (∀ s : State, s.config.undefTreatment = .fault →
    s.StopsOnViolations (fun p => .fault (.undefinedBehaviour p)))

/-- 60_exceptions.md R129, R132; 70_reset_and_hazards.md R148, R149: with `ALLOC_CAN_FAIL` at its default
an operation completes exactly when it is within its preconditions. That a violated precondition has no
meaning is the spec's decision D11; that an absent operand and a write of a constant stop are the model's,
log entries 7 (DEDUCED) and 8 (DESIGN CHOICE). -/
def Obligations.CompletesExactlyWithinPreconditions : Prop :=
  ∀ (i : Instr) (s : State), s.config.allocCanFail = false →
    ((∃ t, exec i s = .next t) ↔ s.Allows i)

/-- 60_exceptions.md R132: no operation is defined on an operand that denotes no instance (the refusal is
the model's, log entry 7). -/
def Obligations.AbsentOperandsAreRefused : Prop :=
  ∀ (s : State),
    (∀ v i, s.vectors.length ≤ v →
      exec (.bvSet v i) s = .refused .absentOperand ∧
      exec (.bvClr v i) s = .refused .absentOperand ∧
      (∀ b, exec (.bvXor v i b) s = .refused .absentOperand) ∧
      exec (.bvGet v i) s = .refused .absentOperand) ∧
    (∀ h r c, s.matrices.length ≤ h →
      exec (.bmSet (.inst h) r c) s = .refused .absentOperand ∧
      exec (.bmClr (.inst h) r c) s = .refused .absentOperand ∧
      exec (.bmGet (.inst h) r c) s = .refused .absentOperand ∧
      exec (.bmToData (.inst h)) s = .refused .absentOperand ∧
      (∀ b, exec (.bmMul (.inst h) b) s = .refused .absentOperand) ∧
      ∀ a A, s.matrix? a = some A → exec (.bmMul a (.inst h)) s = .refused .absentOperand)

/-- 60_exceptions.md R127 with its decision D9: a creating operation delivers `absent` in the listed cases and no others, and
then no state is changed. -/
def Obligations.AbsentExactlyOnFailedCreation : Prop :=
  (∀ (length : Nat) (s : State), ∃ t, exec (.bvCreate length) s = .next t ∧
    (t.result = .absent ↔ length < 1 ∨ s.allocFails = true) ∧
    (t.result = .absent → DeliversAbsent s t)) ∧
  (∀ (rows cols : Nat) (s : State), ∃ t, exec (.bmCreate rows cols) s = .next t ∧
    (t.result = .absent ↔ (rows < 1 ∨ cols < 1) ∨ s.allocFails = true) ∧
    (t.result = .absent → DeliversAbsent s t)) ∧
  (∀ (length : Nat) (byte : Byte) (s : State), length ≤ 8 →
    ∃ t, exec (.bmFromData length byte) s = .next t ∧
      (t.result = .absent ↔ length < 1 ∨ s.allocFails = true) ∧
      (t.result = .absent → DeliversAbsent s t)) ∧
  (∀ (a b : MatRef) (A B : BitMatrix) (s : State), s.matrix? a = some A → s.matrix? b = some B →
    A.Good → B.Good → A.cols = B.rows →
    ∃ t, exec (.bmMul a b) s = .next t ∧ (t.result = .absent ↔ s.allocFails = true) ∧
      (t.result = .absent → DeliversAbsent s t)) ∧
  (∀ (i : Instr) (s t : State), exec i s = .next t → t.result = .absent →
    i.op = .bvCreate ∨ i.op = .bmCreate ∨ i.op = .bmFromData ∨ i.op = .bmMul) ∧
  (∀ s : State, s.config.allocCanFail = false → s.allocFails = false) ∧
  State.reset.config.allocCanFail = false

/-- 60_exceptions.md R131 (c), read for a failed allocation (DEDUCED, log entry 9): where a creation's
precondition is violated, a failed allocation is what happens if there is one, and otherwise the violation
is. For every value of the free value `Config.freeAllocFails`. -/
def Obligations.FailedCreationComesFirst : Prop :=
  (∀ (length : Nat) (byte : Byte) (s : State), 8 < length →
    (s.allocFails = true ∧ ∃ t, exec (.bmFromData length byte) s = .next t ∧ DeliversAbsent s t) ∨
    (s.allocFails = false ∧
      exec (.bmFromData length byte) s = s.undefinedBehaviour .fromDataLength)) ∧
  (∀ (a b : MatRef) (A B : BitMatrix) (s : State), s.matrix? a = some A → s.matrix? b = some B →
    A.cols ≠ B.rows →
    (s.allocFails = true ∧ ∃ t, exec (.bmMul a b) s = .next t ∧ DeliversAbsent s t) ∨
    (s.allocFails = false ∧ exec (.bmMul a b) s = s.undefinedBehaviour .shapesMatch))

/-- 93_implementation_defined.md U6: when `ALLOC_CAN_FAIL` an operation does what it does without the
parameter, or is a creation that delivers `absent`; nothing else changes. For every value of the free
value `Config.freeAllocFails`. -/
def Obligations.AllocationFailureOnlyAddsAbsent : Prop :=
  ∀ (i : Instr) (s t : State), exec i s = .next t →
    (t.result = .absent ∧ DeliversAbsent s t ∧
      (i.op = .bvCreate ∨ i.op = .bmCreate ∨ i.op = .bmFromData ∨ i.op = .bmMul)) ∨
    ∃ u, exec i { s with config := { s.config with allocCanFail := false } } = .next u ∧
      t.vectors = u.vectors ∧ t.matrices = u.matrices ∧ t.consts = u.consts ∧
      t.pending = u.pending ∧ t.result = u.result ∧ t.dout = u.dout ∧ t.status = u.status

/-- 10_state.md R23, 20_memory.md R41: an operation changes no instance but the one it names as updated;
a creation adds one, with the next handle; the parameters never change. -/
def Obligations.OtherInstancesAreUntouched : Prop :=
  ∀ (i : Instr) (s t : State), exec i s = .next t →
    (∀ v < s.vectors.length, writtenVector i ≠ some v → t.vectors[v]? = s.vectors[v]?) ∧
    (∀ h < s.matrices.length, writtenMatrix i ≠ some h → t.matrices[h]? = s.matrices[h]?) ∧
    s.vectors.length ≤ t.vectors.length ∧ s.matrices.length ≤ t.matrices.length ∧
    t.vectors.length + t.matrices.length ≤ s.vectors.length + s.matrices.length + 1 ∧
    t.config = s.config ∧ t.pending = s.pending

/-- 20_memory.md R38, the spec's own inference ("derived: from 40_bitvector.md rule R75"): reads change nothing, and reading twice gives the same value. -/
def Obligations.ReadsHaveNoSideEffect : Prop :=
  ∀ (i : Instr) (s t : State), i.op ∈ ([.bvGet, .bmGet, .bmToData, .lookup] : List Op) →
    exec i s = .next t → OnlyDelivers s t ∧ ∃ u, exec i t = .next u ∧ u = t

/-! ### The host's streams (outside the block) -/

/-- 44_host_stream.md R116: ENCSTREAM over the block's ports; it leaves the block as it was but for what is
delivered. That the stream is a layer over the ports is log entry 15; that empty input emits nothing is the
spec's own inference ("derived: from this rule"). -/
def Obligations.EncodeStreamResult : Prop :=
  ∀ s : State, s.consts = Constants.rom →
    (∀ xs : List Byte, ∃ e, encStream s xs = some e ∧ OnlyDelivers s e.after ∧
      e.bytes = xs.flatMap (fun x =>
        [Codec.encode Constants.rom.G (x.extractLsb' 0 4),
         Codec.encode Constants.rom.G (x.extractLsb' 4 4)]) ∧
      e.bytes.length = 2 * xs.length) ∧
    (encStream s [0xAB]).map (·.bytes) = some [0xD2, 0x55] ∧
    (encStream s []).map (·.bytes) = some []

/-- 44_host_stream.md R117, R118, R120, R122: DECSTREAM over the block's ports: its output, its length for
an even or odd input, its three counts; no status stops it. That the stream is a layer over the ports and
the counts start from the host's is log entry 15; that the counts have no width, and which bytes `total`
counts (a free value among R120's three readings), is log entry 20. -/
def Obligations.DecodeStreamResult : Prop :=
  ∀ (s : State) (k : Counters), s.consts = Constants.rom →
    (∀ ws : List Byte, ∃ d, decStream s k ws = some d ∧ OnlyDelivers s d.after ∧
      d.bytes.length = ws.length / 2 ∧
      d.counters.total = k.total + ws.length / 2 * Config.hostTotalReading.perPair +
        ws.length % 2 * Config.hostTotalReading.perTrailing) ∧
    (∀ (w0 w1 : Byte) (ws : List Byte) (st0 st1 : Status) (lo hi : Nibble),
      s.Performs (.decode w0) (.decoded st0 lo) → s.Performs (.decode w1) (.decoded st1 hi) →
      (decStream s k (w0 :: w1 :: ws)).map (fun d => (d.bytes, d.counters)) =
        (decStream s (k.afterPair st0 st1) ws).map (fun d => ((hi ++ lo) :: d.bytes, d.counters))) ∧
    (∀ w : Byte, (decStream s k [w]).map
      (fun d => (d.bytes, d.counters.uncorrectable, d.counters.corrected)) =
        some ([], k.uncorrectable, k.corrected)) ∧
    (decStream s k [0xD2, 0x55]).map
      (fun d => (d.bytes, d.counters.uncorrectable, d.counters.corrected)) =
        some ([0xAB], k.uncorrectable, k.corrected) ∧
    (decStream s k [0xD3, 0x55]).map
      (fun d => (d.bytes, d.counters.uncorrectable, d.counters.corrected)) =
        some ([0xAB], k.uncorrectable, k.corrected + 1)

/-- 44_host_stream.md R119, the spec's own inference ("derived: from rules R116, R117"): decoding an encoded
stream gives it back, also with at most one flipped bit in each encoded byte, each damaged byte counted as
corrected (`total` as log entry 20 has it; the layer over the ports: log entry 15). -/
def Obligations.StreamRoundTrip : Prop :=
  ∀ (s : State) (k : Counters) (xs es : List Byte), s.consts = Constants.rom →
    es.length = 2 * xs.length → (∀ e ∈ es, weight e ≤ 1) →
    ∃ c d, encStream s xs = some c ∧
      decStream c.after k (List.zipWith (· ^^^ ·) c.bytes es) = some d ∧ d.bytes = xs ∧
      d.counters = { total := k.total + xs.length * Config.hostTotalReading.perPair
                     uncorrectable := k.uncorrectable
                     corrected := k.corrected + es.countP (fun e => weight e == 1) }
end

