-- ==== Sys2Proof/Laws/Storage.lean ====
section
/-! SUPPORT. Laws of storage: a read after a write, the canonical form kept, and canonical storages
that read alike are equal. -/

namespace Sys2Proof.Machine

@[simp] theorem Memory.read_nil (u : Nat) : Memory.read [] u = Memory.blank := rfl

theorem Memory.read_cons (a : Nat) (x : Byte) (m : Memory) (u : Nat) :
    Memory.read ((a, x) :: m) u = if u = a then x else Memory.read m u := rfl

/-- A unit that is not listed reads as blank. -/
theorem Memory.read_unlisted {m : Memory} {u : Nat} (h : ∀ c ∈ m, c.1 ≠ u) :
    m.read u = Memory.blank := by
  induction m with
  | nil => rfl
  | cons c m ih =>
    obtain ⟨a, x⟩ := c
    have ha : u ≠ a := fun e => h (a, x) (by simp) e.symm
    rw [Memory.read_cons, if_neg ha]
    exact ih fun c hc => h c (List.mem_cons_of_mem _ hc)

theorem Memory.wf_tail {c : Host.Cell} {m : Memory} (h : Memory.wf (c :: m)) : Memory.wf m :=
  ⟨h.1.of_cons, fun d hd => h.2 d (List.mem_cons_of_mem _ hd)⟩

theorem Memory.wf_head_lt {c : Host.Cell} {m : Memory} (h : Memory.wf (c :: m)) :
    ∀ d ∈ m, c.1 < d.1 := (List.pairwise_cons.1 h.1).1

/-- Reading any unit after a write. -/
theorem Memory.read_write {m : Memory} (h : m.wf) (u : Nat) (b : Byte) (w : Nat) :
    (m.write u b).read w = if w = u then b else m.read w := by
  induction m with
  | nil =>
    by_cases hb : b = Memory.blank
    · simp [Memory.write, hb]
    · simp [Memory.write, hb, Memory.read_cons]
  | cons c m ih =>
    obtain ⟨a, x⟩ := c
    have low := Memory.wf_head_lt h
    by_cases hua : u < a
    · by_cases hb : b = Memory.blank
      · simp only [Memory.write, hua, hb, if_true]
        split
        · next e =>
          subst e
          refine Memory.read_unlisted fun c hc => ?_
          rcases List.mem_cons.1 hc with rfl | hc
          · simp; omega
          · have := low c hc; simp at this; omega
        · rfl
      · simp only [Memory.write, hua, hb, if_true, if_false, Memory.read_cons]
    · by_cases hue : u = a
      · subst hue
        by_cases hb : b = Memory.blank
        · simp only [Memory.write, hb, if_true, Nat.lt_irrefl, if_false, Memory.read_cons]
          split
          · next e =>
            subst e
            exact Memory.read_unlisted fun c hc => by have := low c hc; simp at this; omega
          · rfl
        · simp only [Memory.write, hb, if_true, if_false, Nat.lt_irrefl, Memory.read_cons]
          split <;> rfl
      · simp only [Memory.write, hua, hue, if_false, Memory.read_cons, ih (Memory.wf_tail h)]
        by_cases hwa : w = a
        · subst hwa; simp [Ne.symm hue]
        · simp [hwa]

/-- A write lists no unit but the ones listed before and the one written. -/
theorem Memory.mem_write {m : Memory} {u : Nat} {b : Byte} {c : Host.Cell}
    (h : c ∈ m.write u b) : c ∈ m ∨ (c = (u, b) ∧ b ≠ Memory.blank) := by
  induction m with
  | nil =>
    simp only [Memory.write] at h
    split at h
    · exact .inl h
    · next hb => exact .inr ⟨by simpa using h, hb⟩
  | cons d m ih =>
    obtain ⟨a, x⟩ := d
    simp only [Memory.write] at h
    split at h
    · split at h
      · exact .inl h
      · next hb =>
        rcases List.mem_cons.1 h with rfl | h
        · exact .inr ⟨rfl, hb⟩
        · exact .inl h
    · split at h
      · split at h
        · exact .inl (List.mem_cons_of_mem _ h)
        · next hb =>
          rcases List.mem_cons.1 h with rfl | h
          · exact .inr ⟨rfl, hb⟩
          · exact .inl (List.mem_cons_of_mem _ h)
      · rcases List.mem_cons.1 h with rfl | h
        · exact .inl (by simp)
        · rcases ih h with h | h
          · exact .inl (List.mem_cons_of_mem _ h)
          · exact .inr h

/-- Every write keeps the canonical form. -/
theorem Memory.write_wf {m : Memory} (h : m.wf) (u : Nat) (b : Byte) : (m.write u b).wf := by
  induction m with
  | nil =>
    by_cases hb : b = Memory.blank <;> simp [Memory.write, hb, Memory.wf]
  | cons c m ih =>
    obtain ⟨a, x⟩ := c
    have low := Memory.wf_head_lt h
    have tail := Memory.wf_tail h
    simp only [Memory.write]
    split
    · next hua =>
      split
      · exact h
      · next hb =>
        refine ⟨List.pairwise_cons.2 ⟨fun d hd => ?_, h.1⟩, fun d hd => ?_⟩
        · rcases List.mem_cons.1 hd with rfl | hd
          · exact hua
          · exact Nat.lt_trans hua (low d hd)
        · rcases List.mem_cons.1 hd with rfl | hd
          · exact hb
          · exact h.2 d hd
    · next hua =>
      split
      · next hue =>
        split
        · exact tail
        · next hb =>
          refine ⟨List.pairwise_cons.2 ⟨fun d hd => ?_, tail.1⟩, fun d hd => ?_⟩
          · simpa [hue] using low d hd
          · rcases List.mem_cons.1 hd with rfl | hd
            · exact hb
            · exact tail.2 d hd
      · next hue =>
        refine ⟨List.pairwise_cons.2 ⟨fun d hd => ?_, (ih tail).1⟩, fun d hd => ?_⟩
        · rcases Memory.mem_write hd with hd | ⟨rfl, -⟩
          · exact low d hd
          · simp; omega
        · rcases List.mem_cons.1 hd with rfl | hd
          · exact h.2 (a, x) (by simp)
          · exact (ih tail).2 d hd

/-- Canonical storages that read alike at every unit are equal. -/
theorem Memory.ext_read {m n : Memory} (hm : m.wf) (hn : n.wf) (h : ∀ u, m.read u = n.read u) :
    m = n := by
  induction m generalizing n with
  | nil =>
    cases n with
    | nil => rfl
    | cons d n =>
      obtain ⟨b, y⟩ := d
      have := h b
      simp [Memory.read_cons] at this
      exact absurd this.symm (hn.2 (b, y) (by simp))
  | cons c m ih =>
    obtain ⟨a, x⟩ := c
    have hx := hm.2 (a, x) (by simp)
    have low := Memory.wf_head_lt hm
    cases n with
    | nil =>
      have := h a
      simp [Memory.read_cons] at this
      exact absurd this hx
    | cons d n =>
      obtain ⟨b, y⟩ := d
      have hy := hn.2 (b, y) (by simp)
      have low' := Memory.wf_head_lt hn
      have hab : a = b := by
        rcases Nat.lt_trichotomy a b with lt | e | lt
        · have := h a
          rw [Memory.read_cons, if_pos rfl, Memory.read_cons, if_neg (by omega),
            Memory.read_unlisted fun c hc => by have := low' c hc; simp at this; omega] at this
          exact absurd this hx
        · exact e
        · have := h b
          rw [Memory.read_cons, if_neg (by omega), Memory.read_cons, if_pos rfl,
            Memory.read_unlisted fun c hc => by have := low c hc; simp at this; omega] at this
          exact absurd this.symm hy
      subst hab
      have hxy : x = y := by simpa [Memory.read_cons] using h a
      subst hxy
      congr 1
      refine ih (Memory.wf_tail hm) (Memory.wf_tail hn) fun u => ?_
      by_cases hu : u = a
      · subst hu
        rw [Memory.read_unlisted fun c hc => by have := low c hc; simp at this; omega,
          Memory.read_unlisted fun c hc => by have := low' c hc; simp at this; omega]
      · simpa [Memory.read_cons, hu] using h u

end Sys2Proof.Machine
end

