-- ==== Sys2Proof/Laws/BitVector.lean ====
section
/-! SUPPORT. Laws of one vector: what each single-bit operation makes of every bit and of every storage
unit, and that it keeps a good vector good. -/

namespace Sys2Proof.Machine

/-! ### Places -/

theorem positionOf_lt (i : Nat) : positionOf i < 8 := by unfold positionOf; omega

/-- A bit index is its unit and its position. -/
theorem place_inj {i j : Nat} (hu : unitOf i = unitOf j) (hp : positionOf i = positionOf j) :
    i = j := by
  unfold unitOf at hu; unfold positionOf at hp; omega

theorem getLsbD_bitMask {k p : Nat} (hp : p < 8) :
    (bitMask k).getLsbD p = decide (p = k) := by
  simp only [bitMask, BitVec.getLsbD_shiftLeft, BitVec.getLsbD_one]
  by_cases h : p = k
  · subst h; simp [hp]
  · by_cases hl : p < k
    · simp [h, hl]
    · simp [h]; omega

theorem shifted_bit (value : Bit) (k : Nat) :
    (BitVec.ofBool value).setWidth 8 <<< k = if value then bitMask k else 0#8 := by
  cases value <;> simp [bitMask]

/-! ### Shapes -/

@[simp] theorem BitVector.memWrite_length (V : BitVector) (u : Nat) (b : Byte) :
    (V.memWrite u b).length = V.length := rfl
@[simp] theorem BitVector.setBit_length (V : BitVector) (i : Nat) :
    (V.setBit i).length = V.length := rfl
@[simp] theorem BitVector.clrBit_length (V : BitVector) (i : Nat) :
    (V.clrBit i).length = V.length := rfl
@[simp] theorem BitVector.xorBit_length (V : BitVector) (i : Nat) (b : Bit) :
    (V.xorBit i b).length = V.length := rfl
@[simp] theorem BitVector.zero_length (n : Nat) : (BitVector.zero n).length = n := rfl
@[simp] theorem BitVector.zero_storage (n : Nat) : (BitVector.zero n).storage = [] := rfl
@[simp] theorem BitVector.zero_memRead (n u : Nat) : (BitVector.zero n).memRead u = 0#8 := rfl

/-- Every bit of a new vector reads 0 (R71). -/
@[simp] theorem BitVector.zero_bit (n i : Nat) : (BitVector.zero n).bit i = false := by
  simp [BitVector.bit]

/-! ### Storage units -/

theorem BitVector.memRead_memWrite {V : BitVector} (h : V.storage.wf) (u w : Nat) (b : Byte) :
    (V.memWrite u b).memRead w = if w = u then b else V.memRead w :=
  Memory.read_write h u b w

theorem BitVector.setBit_memRead_other {V : BitVector} (h : V.storage.wf) {i u : Nat}
    (hu : u ≠ unitOf i) : (V.setBit i).memRead u = V.memRead u := by
  rw [BitVector.setBit, BitVector.memRead_memWrite h, if_neg hu]

theorem BitVector.clrBit_memRead_other {V : BitVector} (h : V.storage.wf) {i u : Nat}
    (hu : u ≠ unitOf i) : (V.clrBit i).memRead u = V.memRead u := by
  rw [BitVector.clrBit, BitVector.memRead_memWrite h, if_neg hu]

theorem BitVector.xorBit_memRead_other {V : BitVector} (h : V.storage.wf) {i u : Nat} {b : Bit}
    (hu : u ≠ unitOf i) : (V.xorBit i b).memRead u = V.memRead u := by
  rw [BitVector.xorBit, BitVector.memRead_memWrite h, if_neg hu]

/-! ### Bits -/

/-- Bit `j` after a write of the unit of bit `i`. -/
theorem BitVector.bit_memWrite {V : BitVector} (h : V.storage.wf) (i j : Nat) (b : Byte) :
    (V.memWrite (unitOf i) b).bit j =
      if unitOf j = unitOf i then b.getLsbD (positionOf j) else V.bit j := by
  simp only [BitVector.bit, BitVector.memRead_memWrite h]
  split <;> rfl

theorem BitVector.bit_setBit {V : BitVector} (h : V.storage.wf) (i j : Nat) :
    (V.setBit i).bit j = if j = i then true else V.bit j := by
  rw [BitVector.setBit, BitVector.bit_memWrite h]
  by_cases hu : unitOf j = unitOf i
  · rw [if_pos hu, BitVec.getLsbD_or, getLsbD_bitMask (positionOf_lt j)]
    by_cases hj : j = i
    · simp [hj]
    · have hp : positionOf j ≠ positionOf i := fun e => hj (place_inj hu e)
      simp [hj, hp, BitVector.bit, hu]
  · have hj : j ≠ i := fun e => hu (by rw [e])
    simp [hu, hj]

theorem BitVector.bit_clrBit {V : BitVector} (h : V.storage.wf) (i j : Nat) :
    (V.clrBit i).bit j = if j = i then false else V.bit j := by
  rw [BitVector.clrBit, BitVector.bit_memWrite h]
  by_cases hu : unitOf j = unitOf i
  · rw [if_pos hu, BitVec.getLsbD_and, BitVec.getLsbD_not, getLsbD_bitMask (positionOf_lt j)]
    by_cases hj : j = i
    · simp [hj]
    · have hp : positionOf j ≠ positionOf i := fun e => hj (place_inj hu e)
      simp [hj, hp, BitVector.bit, hu, positionOf_lt]
  · have hj : j ≠ i := fun e => hu (by rw [e])
    simp [hu, hj]

theorem BitVector.bit_xorBit {V : BitVector} (h : V.storage.wf) (i j : Nat) (b : Bit) :
    (V.xorBit i b).bit j = if j = i then V.bit j ^^ b else V.bit j := by
  rw [BitVector.xorBit, BitVector.bit_memWrite h, shifted_bit]
  by_cases hu : unitOf j = unitOf i
  · rw [if_pos hu, BitVec.getLsbD_xor]
    have hm := getLsbD_bitMask (k := positionOf i) (positionOf_lt j)
    by_cases hj : j = i
    · cases b
      · simp [hj, BitVector.bit]
      · subst hj; simp [hm, BitVector.bit]
    · have hp : positionOf j ≠ positionOf i := fun e => hj (place_inj hu e)
      cases b
      · simp [hj, BitVector.bit, hu]
      · simp [hj, hm, hp, BitVector.bit, hu]
  · have hj : j ≠ i := fun e => hu (by rw [e])
    simp [hu, hj]

/-! ### Good vectors -/

theorem BitVector.Good.wf {V : BitVector} (h : V.Good) : V.storage.wf := h.2.1

/-- A new vector of a length of at least 1 is good. -/
theorem BitVector.zero_good {n : Nat} (hn : 1 ≤ n) : (BitVector.zero n).Good :=
  ⟨hn, ⟨List.Pairwise.nil, by simp⟩, by simp, by simp⟩

/-- A write inside the storage that leaves the pad bits zero keeps a vector good. -/
theorem BitVector.memWrite_good {V : BitVector} (h : V.Good) {u : Nat} {b : Byte}
    (hu : u < V.unitCount)
    (pad : ∀ i < 8 * V.unitCount, V.length ≤ i → (V.memWrite u b).bit i = false) :
    (V.memWrite u b).Good := by
  refine ⟨h.1, Memory.write_wf h.wf u b, fun c hc => ?_, pad⟩
  rcases Memory.mem_write hc with hc | ⟨rfl, -⟩
  · exact h.2.2.1 c hc
  · exact hu

theorem BitVector.unitOf_lt {V : BitVector} {i : Nat} (hi : i < V.length) :
    unitOf i < V.unitCount := by
  unfold unitOf BitVector.unitCount; omega

theorem BitVector.setBit_good {V : BitVector} (h : V.Good) {i : Nat} (hi : i < V.length) :
    (V.setBit i).Good :=
  BitVector.memWrite_good h (BitVector.unitOf_lt hi) fun j hj hl => by
    have := BitVector.bit_setBit h.wf i j
    rw [if_neg (by omega), h.2.2.2 j hj hl] at this
    exact this

theorem BitVector.clrBit_good {V : BitVector} (h : V.Good) {i : Nat} (hi : i < V.length) :
    (V.clrBit i).Good :=
  BitVector.memWrite_good h (BitVector.unitOf_lt hi) fun j hj hl => by
    have := BitVector.bit_clrBit h.wf i j
    rw [if_neg (by omega), h.2.2.2 j hj hl] at this
    exact this

theorem BitVector.xorBit_good {V : BitVector} (h : V.Good) {i : Nat} {b : Bit}
    (hi : i < V.length) : (V.xorBit i b).Good :=
  BitVector.memWrite_good h (BitVector.unitOf_lt hi) fun j hj hl => by
    have := BitVector.bit_xorBit h.wf i j b
    rw [if_neg (by omega), h.2.2.2 j hj hl] at this
    exact this

/-! ### Equality -/

theorem BitVector.memRead_beyond {V : BitVector} (h : V.Good) {u : Nat} (hu : V.unitCount ≤ u) :
    V.memRead u = Memory.blank :=
  Memory.read_unlisted fun c hc => by have := h.2.2.1 c hc; omega

/-- The bit at position `p` of unit `u`. -/
theorem BitVector.bit_at (V : BitVector) (u : Nat) {p : Nat} (hp : p < 8) :
    V.bit (8 * u + (7 - p)) = (V.memRead u).getLsbD p := by
  have hu : unitOf (8 * u + (7 - p)) = u := by unfold unitOf; omega
  have hq : positionOf (8 * u + (7 - p)) = p := by unfold positionOf; omega
  rw [BitVector.bit, hu, hq]

/-- Good vectors of one length with the same in-range bits are equal (40_bitvector.md R76). -/
theorem BitVector.ext_bits {V W : BitVector} (hV : V.Good) (hW : W.Good)
    (hl : V.length = W.length) (hb : ∀ i < V.length, V.bit i = W.bit i) : V = W := by
  have hc : V.unitCount = W.unitCount := by simp [BitVector.unitCount, hl]
  have hs : V.storage = W.storage := Memory.ext_read hV.wf hW.wf fun u => by
    change V.memRead u = W.memRead u
    by_cases hu : u < V.unitCount
    · refine BitVec.eq_of_getLsbD_eq fun p hp => ?_
      rw [← BitVector.bit_at V u hp, ← BitVector.bit_at W u hp]
      by_cases hi : 8 * u + (7 - p) < V.length
      · exact hb _ hi
      · rw [hV.2.2.2 _ (by omega) (by omega), hW.2.2.2 _ (by omega) (by omega)]
    · rw [BitVector.memRead_beyond hV (by omega), BitVector.memRead_beyond hW (by omega)]
  cases V; cases W; simp_all

end Sys2Proof.Machine
end

