-- ==== Sys2Proof/Laws/BitMatrix.lean ====
section
/-! SUPPORT. Laws of one matrix: what each cell operation makes of every cell, what the multiplier and
the conversions compute, and that all of them give good matrices. -/

namespace Sys2Proof.Machine

/-! ### Shapes -/

@[simp] theorem BitMatrix.setCell_rows (M : BitMatrix) (r c : Nat) : (M.setCell r c).rows = M.rows := rfl
@[simp] theorem BitMatrix.setCell_cols (M : BitMatrix) (r c : Nat) : (M.setCell r c).cols = M.cols := rfl
@[simp] theorem BitMatrix.clrCell_rows (M : BitMatrix) (r c : Nat) : (M.clrCell r c).rows = M.rows := rfl
@[simp] theorem BitMatrix.clrCell_cols (M : BitMatrix) (r c : Nat) : (M.clrCell r c).cols = M.cols := rfl
@[simp] theorem BitMatrix.xorCell_rows (M : BitMatrix) (r c : Nat) (b : Bit) :
    (M.xorCell r c b).rows = M.rows := rfl
@[simp] theorem BitMatrix.xorCell_cols (M : BitMatrix) (r c : Nat) (b : Bit) :
    (M.xorCell r c b).cols = M.cols := rfl
@[simp] theorem BitMatrix.zero_rows (r c : Nat) : (BitMatrix.zero r c).rows = r := rfl
@[simp] theorem BitMatrix.zero_cols (r c : Nat) : (BitMatrix.zero r c).cols = c := rfl
@[simp] theorem BitMatrix.zero_vec (r c : Nat) : (BitMatrix.zero r c).vec = BitVector.zero (r * c) := rfl
@[simp] theorem BitMatrix.zero_cell (n m r c : Nat) : (BitMatrix.zero n m).cell r c = false := by
  simp [BitMatrix.cell]

/-! ### Cells -/

/-- Cells in range have distinct indices (20_memory.md R32). -/
theorem BitMatrix.index_inj {M : BitMatrix} {r c r' c' : Nat} (hc : c < M.cols) (hc' : c' < M.cols)
    (h : M.index r c = M.index r' c') : r = r' ∧ c = c' := by
  unfold BitMatrix.index at h
  have hpos : 0 < M.cols := by omega
  have e := congrArg (· / M.cols) h
  have f := congrArg (· % M.cols) h
  simp only [Nat.mul_comm _ M.cols, Nat.mul_add_div hpos, Nat.mul_add_mod, Nat.div_eq_of_lt hc,
    Nat.div_eq_of_lt hc', Nat.mod_eq_of_lt hc, Nat.mod_eq_of_lt hc'] at e f
  omega

/-- A cell in range is a bit in range. -/
theorem BitMatrix.index_lt {M : BitMatrix} (hl : M.vec.length = M.rows * M.cols) {r c : Nat}
    (h : M.inRange r c) : M.index r c < M.vec.length := by
  rw [hl]
  have : (r + 1) * M.cols ≤ M.rows * M.cols := Nat.mul_le_mul_right _ h.1
  rw [Nat.succ_mul] at this
  have := h.2
  unfold BitMatrix.index; omega

theorem BitMatrix.cell_setCell {M : BitMatrix} (h : M.vec.storage.wf) {r c r' c' : Nat}
    (hc : c < M.cols) (hc' : c' < M.cols) :
    (M.setCell r c).cell r' c' = if r' = r ∧ c' = c then true else M.cell r' c' := by
  change (M.vec.setBit (M.index r c)).bit (M.index r' c') = _
  rw [BitVector.bit_setBit h]
  by_cases e : r' = r ∧ c' = c
  · simp [e]
  · rw [if_neg e, if_neg fun i => e (BitMatrix.index_inj hc' hc i)]; rfl

theorem BitMatrix.cell_clrCell {M : BitMatrix} (h : M.vec.storage.wf) {r c r' c' : Nat}
    (hc : c < M.cols) (hc' : c' < M.cols) :
    (M.clrCell r c).cell r' c' = if r' = r ∧ c' = c then false else M.cell r' c' := by
  change (M.vec.clrBit (M.index r c)).bit (M.index r' c') = _
  rw [BitVector.bit_clrBit h]
  by_cases e : r' = r ∧ c' = c
  · simp [e]
  · rw [if_neg e, if_neg fun i => e (BitMatrix.index_inj hc' hc i)]; rfl

theorem BitMatrix.cell_xorCell {M : BitMatrix} (h : M.vec.storage.wf) {r c r' c' : Nat} (b : Bit)
    (hc : c < M.cols) (hc' : c' < M.cols) :
    (M.xorCell r c b).cell r' c' = if r' = r ∧ c' = c then M.cell r' c' ^^ b else M.cell r' c' := by
  change (M.vec.xorBit (M.index r c) b).bit (M.index r' c') = _
  rw [BitVector.bit_xorBit h]
  by_cases e : r' = r ∧ c' = c
  · simp [e, BitMatrix.cell]
  · rw [if_neg e, if_neg fun i => e (BitMatrix.index_inj hc' hc i)]; rfl

/-! ### Good matrices -/

theorem BitMatrix.Good.vec_good {M : BitMatrix} (h : M.Good) : M.vec.Good := h.2.2.2
theorem BitMatrix.Good.wf {M : BitMatrix} (h : M.Good) : M.vec.storage.wf := h.vec_good.wf

theorem BitMatrix.setCell_good {M : BitMatrix} (h : M.Good) {r c : Nat} (hr : M.inRange r c) :
    (M.setCell r c).Good :=
  ⟨h.1, h.2.1, h.2.2.1, BitVector.setBit_good h.vec_good (BitMatrix.index_lt h.2.2.1 hr)⟩

theorem BitMatrix.clrCell_good {M : BitMatrix} (h : M.Good) {r c : Nat} (hr : M.inRange r c) :
    (M.clrCell r c).Good :=
  ⟨h.1, h.2.1, h.2.2.1, BitVector.clrBit_good h.vec_good (BitMatrix.index_lt h.2.2.1 hr)⟩

theorem BitMatrix.xorCell_good {M : BitMatrix} (h : M.Good) {r c : Nat} {b : Bit}
    (hr : M.inRange r c) : (M.xorCell r c b).Good :=
  ⟨h.1, h.2.1, h.2.2.1, BitVector.xorBit_good h.vec_good (BitMatrix.index_lt h.2.2.1 hr)⟩

theorem BitMatrix.zero_good {r c : Nat} (hr : 1 ≤ r) (hc : 1 ≤ c) : (BitMatrix.zero r c).Good :=
  ⟨hr, hc, rfl, BitVector.zero_good (Nat.mul_pos hr hc)⟩

/-- BM.CREATE gives the zero matrix exactly when both counts are at least 1 (R81). -/
theorem BitMatrix.create_eq (r c : Nat) :
    BitMatrix.create r c = if r < 1 ∨ c < 1 then none else some (BitMatrix.zero r c) := by
  unfold BitMatrix.create BitVector.create
  split
  · rfl
  · next h =>
    have : ¬ r * c < 1 := by
      have : 0 < r * c := Nat.mul_pos (by omega) (by omega)
      omega
    simp [this, BitMatrix.zero]

/-! ### BM.FROMDATA -/

/-- The loop of BM.FROMDATA over the first `n` columns (R85). -/
theorem BitMatrix.fill_spec {M : BitMatrix} (h : M.Good) (byte : Byte) :
    ∀ n ≤ M.cols, (M.fillFromData n byte).Good ∧ (M.fillFromData n byte).rows = M.rows ∧
      (M.fillFromData n byte).cols = M.cols ∧
      ∀ r c, c < M.cols → (M.fillFromData n byte).cell r c =
        if r = 0 ∧ c < n ∧ byte.getLsbD c = true then true else M.cell r c := by
  intro n
  induction n with
  | zero => intro _; exact ⟨h, rfl, rfl, fun r c _ => by simp [BitMatrix.fillFromData]⟩
  | succ n ih =>
    intro hn
    obtain ⟨g, gr, gc, cells⟩ := ih (by omega)
    have e : M.fillFromData (n + 1) byte =
        if byte.getLsbD n then (M.fillFromData n byte).setCell 0 n else M.fillFromData n byte := by
      simp [BitMatrix.fillFromData, List.range_succ, List.foldl_append]
    rw [e]
    split
    · next hb =>
      have hr : (M.fillFromData n byte).inRange 0 n := ⟨by rw [gr]; exact h.1, by rw [gc]; omega⟩
      refine ⟨BitMatrix.setCell_good g hr, gr, gc, fun r c hc => ?_⟩
      rw [BitMatrix.cell_setCell g.wf hr.2 (by rw [gc]; exact hc), cells r c hc]
      by_cases h0 : r = 0 ∧ c = n
      · obtain ⟨rfl, rfl⟩ := h0; simp [hb]
      · rw [if_neg h0]
        have : (c < n + 1) ↔ (c < n ∨ c = n) := by omega
        by_cases hr0 : r = 0
        · have : c ≠ n := fun e => h0 ⟨hr0, e⟩
          have : (c < n + 1) ↔ c < n := by omega
          simp [hr0, this]
        · simp [hr0]
    · next hb =>
      refine ⟨g, gr, gc, fun r c hc => ?_⟩
      rw [cells r c hc]
      by_cases hcn : c = n
      · subst hcn; simp [hb]
      · have : (c < n + 1) ↔ c < n := by omega
        simp [this]

/-! ### BM.MUL -/

theorem xorSum_congr {n : Nat} {e f : Nat → Bit} (h : ∀ k < n, e k = f k) :
    xorSum n e = xorSum n f := by
  induction n with
  | zero => rfl
  | succ n ih => rw [xorSum, xorSum, ih fun k hk => h k (by omega), h n (by omega)]

/-- The `k` loop adds the sum of products to its cell and changes no other (R88). -/
theorem BitMatrix.mulCell_spec {A B C : BitMatrix} (h : C.Good) {i j : Nat} (hr : C.inRange i j) :
    (BitMatrix.mulCell A B i j C).Good ∧ (BitMatrix.mulCell A B i j C).rows = C.rows ∧
      (BitMatrix.mulCell A B i j C).cols = C.cols ∧
      ∀ r c, c < C.cols → (BitMatrix.mulCell A B i j C).cell r c =
        if r = i ∧ c = j then C.cell r c ^^ xorSum A.cols (fun k => A.cell i k && B.cell k j)
        else C.cell r c := by
  unfold BitMatrix.mulCell
  generalize A.cols = n
  induction n with
  | zero => exact ⟨h, rfl, rfl, fun r c _ => by simp [xorSum]⟩
  | succ n ih =>
    obtain ⟨g, gr, gc, cells⟩ := ih
    rw [List.range_succ, List.foldl_append]
    simp only [List.foldl_cons, List.foldl_nil]
    generalize (List.range n).foldl (fun C k => C.xorCell i j (A.cell i k && B.cell k j)) C = D at *
    have hr' : D.inRange i j := ⟨by rw [gr]; exact hr.1, by rw [gc]; exact hr.2⟩
    refine ⟨BitMatrix.xorCell_good g hr', gr, gc, fun r c hc => ?_⟩
    rw [BitMatrix.cell_xorCell g.wf _ hr'.2 (by rw [gc]; exact hc), cells r c hc]
    split <;> simp [xorSum]

/-- The `j` loop over the first `n` columns. -/
theorem BitMatrix.mulRow_spec {A B C : BitMatrix} (h : C.Good) {i : Nat} (hi : i < C.rows) :
    ∀ n ≤ C.cols, ∀ D, D = (List.range n).foldl (fun C j => BitMatrix.mulCell A B i j C) C →
      D.Good ∧ D.rows = C.rows ∧ D.cols = C.cols ∧
      ∀ r c, c < C.cols → D.cell r c =
        if r = i ∧ c < n then C.cell r c ^^ xorSum A.cols (fun k => A.cell i k && B.cell k c)
        else C.cell r c := by
  intro n
  induction n with
  | zero => rintro - D rfl; exact ⟨h, rfl, rfl, fun r c _ => by simp⟩
  | succ n ih =>
    rintro hn D rfl
    rw [List.range_succ, List.foldl_append]
    simp only [List.foldl_cons, List.foldl_nil]
    obtain ⟨g, gr, gc, cells⟩ := ih (by omega) _ rfl
    generalize (List.range n).foldl (fun C j => BitMatrix.mulCell A B i j C) C = D at *
    have hr : D.inRange i n := ⟨by rw [gr]; exact hi, by rw [gc]; omega⟩
    obtain ⟨g', gr', gc', cells'⟩ := BitMatrix.mulCell_spec (A := A) (B := B) g hr
    refine ⟨g', by rw [gr', gr], by rw [gc', gc], fun r c hc => ?_⟩
    rw [cells' r c (by rw [gc]; exact hc), cells r c hc]
    by_cases hri : r = i
    · by_cases hcn : c = n
      · subst hcn; simp [hri]
      · have : (c < n + 1) ↔ c < n := by omega
        simp [hri, hcn, this]
    · simp [hri]

/-- The three loops (R88): every cell of the result is `XOR_k (A[i][k] AND B[k][j])`, added to what
was there. -/
theorem BitMatrix.mulInto_spec {A B C : BitMatrix} (h : C.Good) (hrows : A.rows ≤ C.rows)
    (hcols : B.cols = C.cols) :
    (BitMatrix.mulInto A B C).Good ∧ (BitMatrix.mulInto A B C).rows = C.rows ∧
      (BitMatrix.mulInto A B C).cols = C.cols ∧
      ∀ r c, r < A.rows → c < C.cols → (BitMatrix.mulInto A B C).cell r c =
        (C.cell r c ^^ xorSum A.cols (fun k => A.cell r k && B.cell k c)) := by
  have key : ∀ n ≤ C.rows, ∀ D, D = (List.range n).foldl (fun C i => BitMatrix.mulRow A B i C) C →
      D.Good ∧ D.rows = C.rows ∧ D.cols = C.cols ∧
      ∀ r c, c < C.cols → D.cell r c =
        if r < n then C.cell r c ^^ xorSum A.cols (fun k => A.cell r k && B.cell k c)
        else C.cell r c := by
    intro n
    induction n with
    | zero => rintro - D rfl; exact ⟨h, rfl, rfl, fun r c _ => by simp⟩
    | succ n ih =>
      rintro hn D rfl
      rw [List.range_succ, List.foldl_append]
      simp only [List.foldl_cons, List.foldl_nil]
      obtain ⟨g, gr, gc, cells⟩ := ih (by omega) _ rfl
      generalize (List.range n).foldl (fun C i => BitMatrix.mulRow A B i C) C = D at *
      obtain ⟨g', gr', gc', cells'⟩ :=
        BitMatrix.mulRow_spec (A := A) (B := B) g (i := n) (by rw [gr]; omega) B.cols
          (by rw [hcols, gc]) _ rfl
      refine ⟨g', by rw [← gr]; exact gr', by rw [← gc]; exact gc', fun r c hc => ?_⟩
      have := cells' r c (by rw [gc]; exact hc)
      rw [BitMatrix.mulRow, this, cells r c hc]
      by_cases hrn : r = n
      · subst hrn; simp [hcols, hc]
      · have : (r < n + 1) ↔ r < n := by omega
        simp [hrn, this]
  obtain ⟨g, gr, gc, cells⟩ := key A.rows hrows _ rfl
  exact ⟨g, gr, gc, fun r c hr hc => by rw [BitMatrix.mulInto, cells r c hc, if_pos hr]⟩

end Sys2Proof.Machine
end

