-- ==== Sys2Proof/Laws/HostStream.lean ====
section
/-! SUPPORT. The host's counts field by field, and the error rate case by case. -/

namespace Sys2Proof.Machine

@[simp] theorem Counters.count_total (k : Counters) (st : Status) :
    (k.count st).total = k.total := by cases st <;> rfl
@[simp] theorem Counters.count_uncorrectable (k : Counters) (st : Status) :
    (k.count st).uncorrectable = k.uncorrectable + (if st = .err then 1 else 0) := by
  cases st <;> rfl
@[simp] theorem Counters.count_corrected (k : Counters) (st : Status) :
    (k.count st).corrected = k.corrected + (if st = .corrected then 1 else 0) := by
  cases st <;> rfl

@[simp] theorem Counters.countPair_total (k : Counters) :
    k.countPair.total = k.total + Config.hostTotalReading.perPair := rfl
@[simp] theorem Counters.countPair_uncorrectable (k : Counters) :
    k.countPair.uncorrectable = k.uncorrectable := rfl
@[simp] theorem Counters.countPair_corrected (k : Counters) :
    k.countPair.corrected = k.corrected := rfl

@[simp] theorem Counters.countTrailing_total (k : Counters) :
    k.countTrailing.total = k.total + Config.hostTotalReading.perTrailing := rfl
@[simp] theorem Counters.countTrailing_uncorrectable (k : Counters) :
    k.countTrailing.uncorrectable = k.uncorrectable := rfl
@[simp] theorem Counters.countTrailing_corrected (k : Counters) :
    k.countTrailing.corrected = k.corrected := rfl

/-- A pair whose two statuses are `OK` moves `total` only. -/
theorem Counters.afterPair_ok (k : Counters) : k.afterPair .ok .ok = k.countPair := rfl

/-- The reading of `total` with and without a pair of bytes (44_host_stream.md R120): one of two. -/
theorem TotalReading.perPair_cases (r : TotalReading) : r.perPair = 2 ∨ r.perPair = 1 := by
  cases r <;> simp [TotalReading.perPair]

theorem errorRate_of_zero {k : Counters} (h : k.total = 0) : errorRate k = Config.hostRateAtZero := by
  rw [errorRate, if_pos h]

theorem errorRate_of_pos {k : Counters} (h : 0 < k.total) :
    errorRate k = Config.hostRoundedRate k.uncorrectable k.total
      ((k.uncorrectable : Rat) / (k.total : Rat)) := by
  rw [errorRate, if_neg (by omega)]

@[simp] theorem Unstreamed.diagnostics_counters (d : Unstreamed) :
    d.diagnostics.counters = d.counters := rfl
@[simp] theorem Unstreamed.diagnostics_rate (d : Unstreamed) :
    d.diagnostics.rate = errorRate d.counters := rfl

end Sys2Proof.Machine
end

