-- ==== Sys2Proof/Laws/State.lean ====
section
/-! SUPPORT. One lemma per field per update of the state, true by rfl, so that no proof unfolds a
record update. -/

namespace Sys2Proof.Machine

/-! ### deliver -/

@[simp] theorem State.deliver_consts (s : State) (r : Result) :
    (s.deliver r).consts = s.consts := rfl
@[simp] theorem State.deliver_vectors (s : State) (r : Result) :
    (s.deliver r).vectors = s.vectors := rfl
@[simp] theorem State.deliver_matrices (s : State) (r : Result) :
    (s.deliver r).matrices = s.matrices := rfl
@[simp] theorem State.deliver_pending (s : State) (r : Result) :
    (s.deliver r).pending = s.pending := rfl
@[simp] theorem State.deliver_result (s : State) (r : Result) :
    (s.deliver r).result = r := rfl
@[simp] theorem State.deliver_dout (s : State) (r : Result) :
    (s.deliver r).dout = r.dout := rfl
@[simp] theorem State.deliver_status (s : State) (r : Result) :
    (s.deliver r).status = r.statusPort := rfl
@[simp] theorem State.deliver_config (s : State) (r : Result) :
    (s.deliver r).config = s.config := rfl
@[simp] theorem State.deliver_draws (s : State) (r : Result) :
    (s.deliver r).draws = s.draws := rfl

/-! ### addVector -/

@[simp] theorem State.addVector_consts (s : State) (V : BitVector) :
    (s.addVector V).consts = s.consts := rfl
@[simp] theorem State.addVector_vectors (s : State) (V : BitVector) :
    (s.addVector V).vectors = s.vectors ++ [V] := rfl
@[simp] theorem State.addVector_matrices (s : State) (V : BitVector) :
    (s.addVector V).matrices = s.matrices := rfl
@[simp] theorem State.addVector_pending (s : State) (V : BitVector) :
    (s.addVector V).pending = s.pending := rfl
@[simp] theorem State.addVector_result (s : State) (V : BitVector) :
    (s.addVector V).result = s.result := rfl
@[simp] theorem State.addVector_dout (s : State) (V : BitVector) :
    (s.addVector V).dout = s.dout := rfl
@[simp] theorem State.addVector_status (s : State) (V : BitVector) :
    (s.addVector V).status = s.status := rfl
@[simp] theorem State.addVector_config (s : State) (V : BitVector) :
    (s.addVector V).config = s.config := rfl
@[simp] theorem State.addVector_draws (s : State) (V : BitVector) :
    (s.addVector V).draws = s.draws := rfl

/-! ### addMatrix -/

@[simp] theorem State.addMatrix_consts (s : State) (M : BitMatrix) :
    (s.addMatrix M).consts = s.consts := rfl
@[simp] theorem State.addMatrix_vectors (s : State) (M : BitMatrix) :
    (s.addMatrix M).vectors = s.vectors := rfl
@[simp] theorem State.addMatrix_matrices (s : State) (M : BitMatrix) :
    (s.addMatrix M).matrices = s.matrices ++ [M] := rfl
@[simp] theorem State.addMatrix_pending (s : State) (M : BitMatrix) :
    (s.addMatrix M).pending = s.pending := rfl
@[simp] theorem State.addMatrix_result (s : State) (M : BitMatrix) :
    (s.addMatrix M).result = s.result := rfl
@[simp] theorem State.addMatrix_dout (s : State) (M : BitMatrix) :
    (s.addMatrix M).dout = s.dout := rfl
@[simp] theorem State.addMatrix_status (s : State) (M : BitMatrix) :
    (s.addMatrix M).status = s.status := rfl
@[simp] theorem State.addMatrix_config (s : State) (M : BitMatrix) :
    (s.addMatrix M).config = s.config := rfl
@[simp] theorem State.addMatrix_draws (s : State) (M : BitMatrix) :
    (s.addMatrix M).draws = s.draws := rfl

/-! ### putVector -/

@[simp] theorem State.putVector_consts (s : State) (v : Nat) (V : BitVector) :
    (s.putVector v V).consts = s.consts := rfl
@[simp] theorem State.putVector_vectors (s : State) (v : Nat) (V : BitVector) :
    (s.putVector v V).vectors = s.vectors.set v V := rfl
@[simp] theorem State.putVector_matrices (s : State) (v : Nat) (V : BitVector) :
    (s.putVector v V).matrices = s.matrices := rfl
@[simp] theorem State.putVector_pending (s : State) (v : Nat) (V : BitVector) :
    (s.putVector v V).pending = s.pending := rfl
@[simp] theorem State.putVector_result (s : State) (v : Nat) (V : BitVector) :
    (s.putVector v V).result = s.result := rfl
@[simp] theorem State.putVector_dout (s : State) (v : Nat) (V : BitVector) :
    (s.putVector v V).dout = s.dout := rfl
@[simp] theorem State.putVector_status (s : State) (v : Nat) (V : BitVector) :
    (s.putVector v V).status = s.status := rfl
@[simp] theorem State.putVector_config (s : State) (v : Nat) (V : BitVector) :
    (s.putVector v V).config = s.config := rfl
@[simp] theorem State.putVector_draws (s : State) (v : Nat) (V : BitVector) :
    (s.putVector v V).draws = s.draws := rfl

/-! ### putMatrix -/

@[simp] theorem State.putMatrix_consts (s : State) (h : Nat) (M : BitMatrix) :
    (s.putMatrix h M).consts = s.consts := rfl
@[simp] theorem State.putMatrix_vectors (s : State) (h : Nat) (M : BitMatrix) :
    (s.putMatrix h M).vectors = s.vectors := rfl
@[simp] theorem State.putMatrix_matrices (s : State) (h : Nat) (M : BitMatrix) :
    (s.putMatrix h M).matrices = s.matrices.set h M := rfl
@[simp] theorem State.putMatrix_pending (s : State) (h : Nat) (M : BitMatrix) :
    (s.putMatrix h M).pending = s.pending := rfl
@[simp] theorem State.putMatrix_result (s : State) (h : Nat) (M : BitMatrix) :
    (s.putMatrix h M).result = s.result := rfl
@[simp] theorem State.putMatrix_dout (s : State) (h : Nat) (M : BitMatrix) :
    (s.putMatrix h M).dout = s.dout := rfl
@[simp] theorem State.putMatrix_status (s : State) (h : Nat) (M : BitMatrix) :
    (s.putMatrix h M).status = s.status := rfl
@[simp] theorem State.putMatrix_config (s : State) (h : Nat) (M : BitMatrix) :
    (s.putMatrix h M).config = s.config := rfl
@[simp] theorem State.putMatrix_draws (s : State) (h : Nat) (M : BitMatrix) :
    (s.putMatrix h M).draws = s.draws := rfl

/-! ### present -/

@[simp] theorem State.present_consts (s : State) (q : Request) :
    (s.present q).consts = s.consts := rfl
@[simp] theorem State.present_vectors (s : State) (q : Request) :
    (s.present q).vectors = s.vectors := rfl
@[simp] theorem State.present_matrices (s : State) (q : Request) :
    (s.present q).matrices = s.matrices := rfl
@[simp] theorem State.present_pending (s : State) (q : Request) :
    (s.present q).pending = q :: s.pending := rfl
@[simp] theorem State.present_result (s : State) (q : Request) :
    (s.present q).result = s.result := rfl
@[simp] theorem State.present_dout (s : State) (q : Request) :
    (s.present q).dout = s.dout := rfl
@[simp] theorem State.present_status (s : State) (q : Request) :
    (s.present q).status = s.status := rfl
@[simp] theorem State.present_config (s : State) (q : Request) :
    (s.present q).config = s.config := rfl
@[simp] theorem State.present_draws (s : State) (q : Request) :
    (s.present q).draws = s.draws := rfl

/-! ### drawn: only the counter of free values moves -/

@[simp] theorem State.drawn_consts (s : State) : s.drawn.consts = s.consts := by
  unfold State.drawn; split <;> rfl
@[simp] theorem State.drawn_vectors (s : State) : s.drawn.vectors = s.vectors := by
  unfold State.drawn; split <;> rfl
@[simp] theorem State.drawn_matrices (s : State) : s.drawn.matrices = s.matrices := by
  unfold State.drawn; split <;> rfl
@[simp] theorem State.drawn_pending (s : State) : s.drawn.pending = s.pending := by
  unfold State.drawn; split <;> rfl
@[simp] theorem State.drawn_result (s : State) : s.drawn.result = s.result := by
  unfold State.drawn; split <;> rfl
@[simp] theorem State.drawn_dout (s : State) : s.drawn.dout = s.dout := by
  unfold State.drawn; split <;> rfl
@[simp] theorem State.drawn_status (s : State) : s.drawn.status = s.status := by
  unfold State.drawn; split <;> rfl
@[simp] theorem State.drawn_config (s : State) : s.drawn.config = s.config := by
  unfold State.drawn; split <;> rfl

/-- With `ALLOC_CAN_FAIL` false nothing is drawn. -/
theorem State.drawn_of_false {s : State} (h : s.config.allocCanFail = false) : s.drawn = s := by
  simp [State.drawn, h]

/-- With `ALLOC_CAN_FAIL` false no allocation fails. -/
theorem State.allocFails_of_false {s : State} (h : s.config.allocCanFail = false) :
    s.allocFails = false := by
  simp [State.allocFails, h]

end Sys2Proof.Machine
end

