-- ==== Sys2Proof/Laws/Ops.lean ====
section
/-! SUPPORT. What each shared operation can do, said once: proofs about the meanings cite these. -/

namespace Sys2Proof.Machine

/-! ### Stops -/

/-- A violated precondition never gives a next state (60_exceptions.md R129, D11). -/
theorem State.undefinedBehaviour_ne_next (s t : State) (p : Precondition) :
    s.undefinedBehaviour p ≠ .next t := by
  unfold State.undefinedBehaviour; split <;> simp

/-! ### Access -/

/-- An operation on one bit goes on exactly when the vector exists and the index is in range. -/
theorem State.onBit_next {s t : State} {v i : Nat} {k : BitVector → Out}
    (h : s.onBit v i k = .next t) :
    ∃ V, s.vector? v = some V ∧ i < V.length ∧ k V = .next t := by
  unfold State.onBit at h
  split at h
  · cases h
  · next V hV =>
    split at h
    · next hi => exact ⟨V, hV, hi, h⟩
    · exact absurd h (State.undefinedBehaviour_ne_next _ _ _)

theorem State.onBit_of {s : State} {v i : Nat} {k : BitVector → Out} {V : BitVector}
    (hV : s.vector? v = some V) (hi : i < V.length) : s.onBit v i k = k V := by
  simp [State.onBit, hV, hi]

theorem State.onMatrix_next {s t : State} {m : MatRef} {k : BitMatrix → Out}
    (h : s.onMatrix m k = .next t) : ∃ M, s.matrix? m = some M ∧ k M = .next t := by
  unfold State.onMatrix at h
  split at h
  · cases h
  · next M hM => exact ⟨M, hM, h⟩

theorem State.onMatrix_of {s : State} {m : MatRef} {k : BitMatrix → Out} {M : BitMatrix}
    (hM : s.matrix? m = some M) : s.onMatrix m k = k M := by
  simp [State.onMatrix, hM]

/-- A write of a cell goes on only for an existing instance and a cell in range. -/
theorem State.onWritableCell_next {s t : State} {m : MatRef} {r c : Nat}
    {k : Nat → BitMatrix → Out} (h : s.onWritableCell m r c k = .next t) :
    ∃ n M, m = .inst n ∧ s.matrices[n]? = some M ∧ M.inRange r c ∧ k n M = .next t := by
  unfold State.onWritableCell at h
  split at h
  · cases h
  · cases h
  · next n =>
    split at h
    · cases h
    · next M hM =>
      split at h
      · next hr => exact ⟨n, M, rfl, hM, hr, h⟩
      · exact absurd h (State.undefinedBehaviour_ne_next _ _ _)

theorem State.onWritableCell_of {s : State} {n r c : Nat} {k : Nat → BitMatrix → Out}
    {M : BitMatrix} (hM : s.matrices[n]? = some M) (hr : M.inRange r c) :
    s.onWritableCell (.inst n) r c k = k n M := by
  simp only [State.onWritableCell, hM, if_pos hr]

/-! ### Creation -/

/-- The end of a creating vector operation: `absent` and no instance touched, or the new instance. -/
theorem State.installVector_cases (s : State) (V? : Option BitVector) :
    DeliversAbsent s (s.installVector V?) ∨
      ∃ V, V? = some V ∧ AddsVector s (s.installVector V?) V := by
  cases V? with
  | none => exact .inl ⟨rfl, rfl, rfl, rfl, rfl, rfl⟩
  | some V =>
    by_cases h : s.allocFails
    · left; constructor <;> simp [State.installVector, h]
    · right; refine ⟨V, rfl, ?_⟩; constructor <;> simp [State.installVector, h]

theorem State.installMatrix_cases (s : State) (M? : Option BitMatrix) :
    DeliversAbsent s (s.installMatrix M?) ∨
      ∃ M, M? = some M ∧ AddsMatrix s (s.installMatrix M?) M := by
  cases M? with
  | none => exact .inl ⟨rfl, rfl, rfl, rfl, rfl, rfl⟩
  | some M =>
    by_cases h : s.allocFails
    · left; constructor <;> simp [State.installMatrix, h]
    · right; refine ⟨M, rfl, ?_⟩; constructor <;> simp [State.installMatrix, h]

/-- With no allocation failure the new instance is there (60_exceptions.md R127). -/
theorem State.installVector_adds {s : State} (h : s.allocFails = false) (V : BitVector) :
    AddsVector s (s.installVector (some V)) V := by
  constructor <;> simp [State.installVector, h]

theorem State.installMatrix_adds {s : State} (h : s.allocFails = false) (M : BitMatrix) :
    AddsMatrix s (s.installMatrix (some M)) M := by
  constructor <;> simp [State.installMatrix, h]

/-- After a creation the ports show nothing (30_encoding.md R51). -/
theorem State.installVector_ports (s : State) (V? : Option BitVector) :
    (s.installVector V?).dout = none ∧ (s.installVector V?).status = none := by
  cases V? with
  | none => exact ⟨rfl, rfl⟩
  | some V => by_cases h : s.allocFails <;> simp [State.installVector, h, Result.dout, Result.statusPort]

theorem State.installMatrix_ports (s : State) (M? : Option BitMatrix) :
    (s.installMatrix M?).dout = none ∧ (s.installMatrix M?).status = none := by
  cases M? with
  | none => exact ⟨rfl, rfl⟩
  | some M => by_cases h : s.allocFails <;> simp [State.installMatrix, h, Result.dout, Result.statusPort]

/-! ### The host's side -/

@[simp] theorem State.fetch_present (s : State) (q : Request) :
    (s.present q).fetch = some (q, s) := rfl

end Sys2Proof.Machine
end

