-- ==== Sys2Proof/Laws/PerInstr.lean ====
section
/-! SUPPORT. Per-operation families (LAWS.json). `Selector`: the encoded word carries the operation's
selector, which the decoder's table gives back, and its byte operand (30_encoding.md R50, R51). -/

namespace Sys2Proof.Laws

/-- The two halves of a made word. -/
theorem sel_make (sel imm : Byte) : (OpWord.make sel imm).sel = sel := by
  refine BitVec.eq_of_getLsbD_eq fun k hk => ?_
  have h := @BitVec.getLsbD_append 8 8 (8 + k) sel imm
  rw [if_neg (by omega), Nat.add_sub_cancel_left] at h
  rw [OpWord.sel, BitVec.getLsbD_extractLsb', decide_eq_true hk, Bool.true_and]
  exact h

theorem imm_make (sel imm : Byte) : (OpWord.make sel imm).imm = imm := by
  refine BitVec.eq_of_getLsbD_eq fun k hk => ?_
  have h := @BitVec.getLsbD_append 8 8 k sel imm
  rw [if_pos hk] at h
  rw [OpWord.imm, BitVec.getLsbD_extractLsb', decide_eq_true hk, Bool.true_and, Nat.zero_add]
  exact h

/-- No two rows of the table of R51 share a selector. -/
theorem ofSel_sel (op : Op) : Op.ofSel op.sel = some op := by
  cases op <;> rfl

/-- The word of `i` carries the selector and the byte operand of `i`. -/
def Selector.Statement (i : Instr) : Prop :=
  Op.ofSel (OpWord.sel (encode i).1) = some i.op ∧ OpWord.imm (encode i).1 = i.imm

theorem Selector.all (i : Instr) : Selector.Statement i :=
  ⟨by rw [encode, sel_make, ofSel_sel], imm_make _ _⟩

theorem Selector.bvCreate (length : Nat) : Selector.Statement (.bvCreate length) := Selector.all _
theorem Selector.bvSet (v i : Nat) : Selector.Statement (.bvSet v i) := Selector.all _
theorem Selector.bvClr (v i : Nat) : Selector.Statement (.bvClr v i) := Selector.all _
theorem Selector.bvXor (v i : Nat) (b : Bit) : Selector.Statement (.bvXor v i b) := Selector.all _
theorem Selector.bvGet (v i : Nat) : Selector.Statement (.bvGet v i) := Selector.all _
theorem Selector.bmCreate (r c : Nat) : Selector.Statement (.bmCreate r c) := Selector.all _
theorem Selector.bmSet (m : MatRef) (r c : Nat) : Selector.Statement (.bmSet m r c) := Selector.all _
theorem Selector.bmClr (m : MatRef) (r c : Nat) : Selector.Statement (.bmClr m r c) := Selector.all _
theorem Selector.bmGet (m : MatRef) (r c : Nat) : Selector.Statement (.bmGet m r c) := Selector.all _
theorem Selector.bmFromData (l : Nat) (x : Byte) : Selector.Statement (.bmFromData l x) := Selector.all _
theorem Selector.bmToData (m : MatRef) : Selector.Statement (.bmToData m) := Selector.all _
theorem Selector.bmMul (a b : MatRef) : Selector.Statement (.bmMul a b) := Selector.all _
theorem Selector.encode (n : Nibble) : Selector.Statement (.encode n) := Selector.all _
theorem Selector.decode (w : Byte) : Selector.Statement (.decode w) := Selector.all _
theorem Selector.syndrome (w : Byte) : Selector.Statement (.syndrome w) := Selector.all _
theorem Selector.lookup (k : Nibble) : Selector.Statement (.lookup k) := Selector.all _
theorem Selector.correct (e : Entry) (w : Byte) : Selector.Statement (.correct e w) := Selector.all _
theorem Selector.extract (w : Byte) : Selector.Statement (.extract w) := Selector.all _
theorem Selector.hamInit : Selector.Statement .hamInit := Selector.all _

end Sys2Proof.Laws
end

