-- ==== Sys2Proof/Tests/Slice0.lean ====
section
/-! SUPPORT. Tests. Expected results are the vectors V1 to V18 and P0 to P6 of 95_test_vectors.md, or
words written out from 30_encoding.md R50 and R51. The `witness_` theorems show, for each statement with
hypotheses, concrete states and operands that meet them. -/

namespace Sys2Proof.Tests

open Sys2Proof Sys2Proof.Machine

/-! ### Helpers -/

/-- The next state of an outcome, if that is what it is. -/
def nextOf : Out → Option State
  | .next t => some t
  | .fault _ => none
  | .refused _ => none

/-- The result an operation delivers. -/
def resultOf (o : Out) : Option Result := (nextOf o).map State.result

/-- The storage units of vector `v` after an operation. -/
def unitsAfter (o : Out) (v : Nat) : Option (List Byte) :=
  ((nextOf o).bind fun t => t.vectors[v]?).map BitVector.units

/-- The refusal of an outcome, if that is what it is. -/
def refusalOf : Out → Option Refusal
  | .next _ => none
  | .fault _ => none
  | .refused why => some why

/-- Shape and storage units of matrix `h` after an operation. -/
def matrixAfter (o : Out) (h : Nat) : Option (Nat × Nat × List Byte) :=
  ((nextOf o).bind fun t => t.matrices[h]?).map fun M => (M.rows, M.cols, M.vec.units)

/-- V11 after step 5: 12 bits, storage `81 00`. -/
def v11 : BitVector := { length := 12, storage := [(0, 0x81)] }

/-- V13: 4×8, storage `80 08 00 00`. -/
def m13 : BitMatrix := { rows := 4, cols := 8, vec := { length := 32, storage := [(0, 0x80), (1, 0x08)] } }

/-- V13: 8×4, all zero. -/
def n13 : BitMatrix := BitMatrix.zero 8 4

/-- V14, line 12: the row `[1,1]`. -/
def a14 : BitMatrix := { rows := 1, cols := 2, vec := { length := 2, storage := [(0, 0xC0)] } }

/-- V14, line 12: `[[1,0],[1,1]]`, storage `B0`. -/
def b14 : BitMatrix := { rows := 2, cols := 2, vec := { length := 4, storage := [(0, 0xB0)] } }

/-- V14, line 3: the row `[1,1,0,1]`, storage `D0`. -/
def d14 : BitMatrix := { rows := 1, cols := 4, vec := { length := 4, storage := [(0, 0xD0)] } }

/-- A block in use: one vector, five matrices. -/
def busy : State := { State.reset with vectors := [v11], matrices := [m13, n13, a14, b14, d14] }

/-- The same with `ALLOC_CAN_FAIL` true. -/
def fallible : State := { busy with config := { allocCanFail := true } }

/-- The same with `UNDEF_TREATMENT` at `fault`. -/
def faulting : State := { busy with config := { undefTreatment := .fault } }

/-! ### Well-formedness: each check refuses an ill-formed term -/

theorem test_wf_fromData_nine_columns : (Instr.bmFromData 9 0x01).wf = false := by decide
theorem test_wf_set_of_G : (Instr.bmSet .g 0 0).wf = false := by decide
theorem test_wf_set_of_HT : (Instr.bmSet .ht 0 0).wf = false := by decide
theorem test_wf_clr_of_G : (Instr.bmClr .g 0 0).wf = false := by decide
theorem test_wf_clr_of_HT : (Instr.bmClr .ht 0 0).wf = false := by decide
theorem test_wf_accepts : (Instr.bmFromData 8 0x01).wf = true ∧ (Instr.bmSet (.inst 0) 0 0).wf = true ∧
    (Instr.bmClr (.inst 0) 0 0).wf = true := by decide

/-! ### Decoding: `sel` from the table of R51, bit by bit, then `imm` -/

theorem test_decode_bvCreate :
    decodeWord 0b00000000_00000000 { length := 12 } = .op (.bvCreate 12) := by decide
theorem test_decode_bvSet :
    decodeWord 0b00000001_00000000 { v := 2, i := 7 } = .op (.bvSet 2 7) := by decide
theorem test_decode_bvClr :
    decodeWord 0b00000010_00000000 { v := 2, i := 7 } = .op (.bvClr 2 7) := by decide
theorem test_decode_bvXor :
    decodeWord 0b00000011_00000000 { v := 2, i := 3, value := true } = .op (.bvXor 2 3 true) := by decide
theorem test_decode_bvGet :
    decodeWord 0b00000100_00000000 { v := 2, i := 11 } = .op (.bvGet 2 11) := by decide
theorem test_decode_bmCreate :
    decodeWord 0b00010000_00000000 { rows := 4, cols := 8 } = .op (.bmCreate 4 8) := by decide
theorem test_decode_bmSet :
    decodeWord 0b00010001_00000000 { m := .inst 1, r := 3, c := 7 } = .op (.bmSet (.inst 1) 3 7) := by
  decide
theorem test_decode_bmClr :
    decodeWord 0b00010010_00000000 { m := .inst 1, r := 3, c := 7 } = .op (.bmClr (.inst 1) 3 7) := by
  decide
theorem test_decode_bmGet :
    decodeWord 0b00010011_00000000 { m := .ht, r := 7, c := 3 } = .op (.bmGet .ht 7 3) := by decide
theorem test_decode_bmFromData :
    decodeWord 0b00010100_11010010 { length := 8 } = .op (.bmFromData 8 0xD2) := by decide
theorem test_decode_bmToData :
    decodeWord 0b00010101_00000000 { m := .g } = .op (.bmToData .g) := by decide
theorem test_decode_bmMul :
    decodeWord 0b00010110_00000000 { a := .inst 4, b := .g } = .op (.bmMul (.inst 4) .g) := by decide
theorem test_decode_encode :
    decodeWord 0b00100000_00001011 .zero = .op (.encode 0xB) ∧
    decodeWord 0b00100000_11111011 .zero = .op (.encode 0xB) := by decide
theorem test_decode_decode : decodeWord 0b00100001_11010010 .zero = .op (.decode 0xD2) := by decide
theorem test_decode_syndrome : decodeWord 0b00100010_11010011 .zero = .op (.syndrome 0xD3) := by decide
theorem test_decode_lookup :
    decodeWord 0b00100011_00000111 .zero = .op (.lookup 7) ∧
    decodeWord 0b00100011_11110111 .zero = .op (.lookup 7) := by decide
theorem test_decode_correct :
    decodeWord 0b00100100_11010011 { e := 0b01110 } = .op (.correct (.pos 6) 0xD3) ∧
    decodeWord 0b00100100_11010011 { e := 0b10000 } = .op (.correct .uncorr 0xD3) := by decide
theorem test_decode_extract : decodeWord 0b00100101_11010010 .zero = .op (.extract 0xD2) := by decide
theorem test_decode_hamInit :
    decodeWord 0b00101111_00000000 .zero = .op .hamInit ∧
    decodeWord 0b00101111_01010101 .zero = .op .hamInit := by decide

/-- V18, last row. -/
theorem test_decode_reserved :
    ∀ w ∈ ([0x0500, 0x0F00, 0x1700, 0x1F00, 0x2600, 0x2E00, 0x3000, 0xFF00, 0xFFFF] : List Nat),
      decodeTableWord 16 w = none := by decide

/-- The rows of the opcode table, as words presented alone. -/
theorem test_table_words :
    decodeTableWord 16 0x0000 = some (.bvCreate 0) ∧ decodeTableWord 16 0x1600 =
      some (.bmMul (.inst 0) (.inst 0)) ∧ decodeTableWord 16 0x24D3 = some (.correct .noerr 0xD3) ∧
    decodeTableWord 16 0x2FFF = some .hamInit ∧ decodeTableWord 8 0x2F = none := by decide

/-- A table word placed by the host is performed by the very next step from reset. -/
theorem test_placed_words_run :
    ∀ w ∈ ([0x0000, 0x0100, 0x0200, 0x0300, 0x0400, 0x1000, 0x1100, 0x1200, 0x1300] ++
        [0x1400, 0x1500, 0x1600, 0x200B, 0x21D2, 0x22D3, 0x2307, 0x24D3, 0x25D2, 0x2F00] : List Nat),
      (nextOf (step (State.reset.withFetchWord 16 w))).isSome = true := by decide +kernel

/-- Only `0x20` and `0x21` are reachable at the ports (R59). -/
theorem test_port_refuses :
    refusalOf (step (State.reset.present (.port 0x22 0xD2))) = some (.rejected (.notAPortOperation 0x22)) := by
  decide

/-! ### BitVector operations (V11) -/

theorem test_bvCreate : unitsAfter (exec (.bvCreate 12) State.reset) 0 = some [0x00, 0x00] := by decide
theorem test_bvCreate_zero : resultOf (exec (.bvCreate 0) State.reset) = some .absent := by decide
theorem test_bvSet_last : unitsAfter (exec (.bvSet 0 11) busy) 0 = some [0x81, 0x10] := by decide
theorem test_bvSet_out_of_range :
    refusalOf (exec (.bvSet 0 12) busy) = some (.undefinedBehaviour .bitIndex) := by decide
theorem test_bvClr : unitsAfter (exec (.bvClr 0 7) busy) 0 = some [0x80, 0x00] := by decide
theorem test_bvClr_other_unit : unitsAfter (exec (.bvClr 0 8) busy) 0 = some [0x81, 0x00] := by decide
theorem test_bvXor_one : unitsAfter (exec (.bvXor 0 3 true) busy) 0 = some [0x91, 0x00] := by decide
theorem test_bvXor_zero : unitsAfter (exec (.bvXor 0 0 false) busy) 0 = some [0x81, 0x00] := by decide
theorem test_bvGet : resultOf (exec (.bvGet 0 7) busy) = some (.bit true) ∧
    resultOf (exec (.bvGet 0 9) busy) = some (.bit false) := by decide
theorem test_bvGet_out_of_range :
    refusalOf (exec (.bvGet 0 12) busy) = some (.undefinedBehaviour .bitIndex) := by decide

/-! ### BitMatrix operations (V13, V14) -/

theorem test_bmCreate :
    matrixAfter (exec (.bmCreate 4 8) State.reset) 0 = some (4, 8, [0x00, 0x00, 0x00, 0x00]) := by decide
theorem test_bmCreate_zero : resultOf (exec (.bmCreate 4 0) State.reset) = some .absent := by decide
theorem test_bmSet : matrixAfter (exec (.bmSet (.inst 0) 3 7) busy) 0 =
    some (4, 8, [0x80, 0x08, 0x00, 0x01]) := by decide
theorem test_bmSet_half_unit_rows : matrixAfter (exec (.bmSet (.inst 1) 1 0) busy) 1 =
    some (8, 4, [0x08, 0x00, 0x00, 0x00]) := by decide
theorem test_bmClr : matrixAfter (exec (.bmClr (.inst 0) 1 4) busy) 0 =
    some (4, 8, [0x80, 0x00, 0x00, 0x00]) := by decide
theorem test_bmClr_constant : refusalOf (exec (.bmClr .g 0 0) busy) = some .constantWrite := by decide
theorem test_bmGet : resultOf (exec (.bmGet (.inst 0) 1 4) busy) = some (.bit true) ∧
    resultOf (exec (.bmGet .ht 7 2) busy) = some (.bit false) := by decide
/-- The index `0*8 + 8` is in the storage, the cell `(0,8)` is not in the shape (U2). -/
theorem test_bmGet_out_of_shape :
    refusalOf (exec (.bmGet (.inst 0) 0 8) busy) = some (.undefinedBehaviour .cellInRange) := by decide
theorem test_bmFromData : matrixAfter (exec (.bmFromData 4 0xFB) State.reset) 0 =
    some (1, 4, [0xD0]) := by decide
theorem test_bmFromData_nine : refusalOf (exec (.bmFromData 9 0x01) State.reset) =
    some (.undefinedBehaviour .fromDataLength) := by decide
theorem test_bmToData : resultOf (exec (.bmToData .g) State.reset) = some (.byte 0x87) := by decide
theorem test_bmToData_HT : refusalOf (exec (.bmToData .ht) State.reset) =
    some (.undefinedBehaviour .eightColumns) := by decide
/-- 1 + 1 = 0 in GF(2). -/
theorem test_bmMul : matrixAfter (exec (.bmMul (.inst 2) (.inst 3)) busy) 5 =
    some (1, 2, [0x40]) := by decide
theorem test_bmMul_G : matrixAfter (exec (.bmMul (.inst 4) .g) busy) 5 = some (1, 8, [0xD2]) ∧
    refusalOf (exec (.bmMul (.inst 4) .ht) busy) = some (.undefinedBehaviour .shapesMatch) := by
  decide +kernel

/-! ### Codec operations (V1, V2, V5 to V8, V12, V17; P2, P3) -/

theorem test_encode : resultOf (exec (.encode 0xB) State.reset) = some (.codeword 0xD2) := by
  decide +kernel
theorem test_encode_ports :
    (nextOf (step (State.reset.present (.port 0x20 0xFB)))).map (fun t => (t.dout, t.status)) =
      some (some 0xD2, some 0b00) := by decide +kernel
theorem test_decode_ports :
    (nextOf (step (State.reset.present (.port 0x21 0x92)))).map (fun t => (t.dout, t.status)) =
      some (some 0x0B, some 0b01) := by decide +kernel
theorem test_decode_err : resultOf (exec (.decode 0x12) State.reset) = some (.decoded .err 0x8) := by
  decide +kernel
theorem test_syndrome : resultOf (exec (.syndrome 0xD3) State.reset) = some (.index 7) ∧
    resultOf (exec (.syndrome 0xD1) State.reset) = some (.index 0xC) := by decide +kernel
theorem test_lookup : resultOf (exec (.lookup 2) State.reset) = some (.entry (.pos 6)) ∧
    resultOf (exec (.lookup 12) State.reset) = some (.entry .uncorr) := by decide
theorem test_correct_pos :
    resultOf (exec (.correct (.pos 6) 0x92) State.reset) = some (.corrected .corrected 0xD2) := by
  decide +kernel
theorem test_correct_uncorr :
    resultOf (exec (.correct .uncorr 0x12) State.reset) = some (.corrected .err 0x12) := by
  decide +kernel
theorem test_extract : resultOf (exec (.extract 0x12) State.reset) = some (.nibble 0x8) ∧
    resultOf (exec (.extract 0x80) State.reset) = some (.nibble 0x1) := by decide +kernel
/-- V17 and P4: the cells of the formula give the storage of R140. -/
theorem test_hamInit : (nextOf (exec .hamInit State.reset)).map (fun t =>
    (t.consts.G.vec.units, t.consts.HT.vec.units)) =
      some ([0x87, 0x4B, 0x2D, 0x1E], [0x7B, 0xDE, 0x84, 0x21]) := by decide +kernel

/-! ### The host's streams (V16) -/

theorem test_encStream :
    (encStream State.reset [0x48, 0x69]).map Encoded.bytes = some [0x1E, 0x2D, 0x99, 0x66] := by
  decide +kernel
theorem test_decStream :
    (decStream State.reset { total := 0, uncorrectable := 0, corrected := 0 }
      [0xD2, 0x45, 0x03, 0xFE, 0x87]).map
      (fun d => (d.bytes, d.counters.uncorrectable, d.counters.corrected)) =
      some ([0xAB, 0xF0], 1, 2) := by decide +kernel

/-- R120: `total` after one pair and a dropped byte, in each reading: input with it, input without it, output. -/
theorem test_total_readings :
    (TotalReading.inputWithTrailing.perPair + TotalReading.inputWithTrailing.perTrailing,
      TotalReading.inputWithoutTrailing.perPair + TotalReading.inputWithoutTrailing.perTrailing,
      TotalReading.output.perPair + TotalReading.output.perTrailing) = (3, 2, 1) := by decide

/-! ### Witnesses: reset, step, encoding -/

theorem witness_constants_hold :
    (busy.present (.port 0x20 0x0B)).consts = State.reset.consts ∧
    (nextOf (step (busy.present (.port 0x20 0x0B)))).isSome = true := by decide +kernel
theorem witness_step_keeps_invariant :
    (busy.present (.unit 0x0100 { i := 11 })).Inv ∧
    (nextOf (step (busy.present (.unit 0x0100 { i := 11 })))).isSome = true := by decide +kernel
theorem witness_step_performs :
    (busy.present (.unit 0x0400 { i := 7 })).pending = .unit 0x0400 { i := 7 } :: busy.pending ∧
    (Request.unit 0x0400 { i := 7 }).decode = .op (.bvGet 0 7) := by decide
theorem witness_nothing_presented : State.reset.pending = [] := by decide
theorem witness_placed_word :
    decodeTableWord 16 0x0000 = some (.bvCreate 0) ∧ decodeTableWord 16 0x2FFF = some .hamInit := by
  decide
theorem witness_reserved_selectors :
    (∀ b ∈ ([0x05, 0x0F, 0x17, 0x1F, 0x26, 0x2E, 0x30, 0xFF] : List Byte), reservedSel b) ∧
    (∀ b ∈ ([0x00, 0x04, 0x10, 0x16, 0x20, 0x25, 0x2F] : List Byte), ¬ reservedSel b) ∧
    (0x1F : Byte) ≠ 0x20 ∧ (0x22 : Byte) ≠ 0x21 := by decide
theorem witness_reserved_codes :
    nextOf (exec (.lookup 12) State.reset) = some (State.reset.deliver (.entry .uncorr)) ∧
    OpWord.sel 0x24D3 = 0x24 ∧ (∀ e : Entry, e.code ≠ 0b00001) ∧ ∀ e : Entry, e.code ≠ 0b11111 := by
  refine ⟨by decide, by decide, ?_, ?_⟩ <;>
  · intro e
    cases e with
    | noerr => decide
    | uncorr => decide
    | pos p => revert p; decide
theorem witness_unused_imm :
    (0x16 : Byte) ∈ ([0x00, 0x01, 0x02, 0x03, 0x04, 0x10, 0x11, 0x12, 0x13, 0x15, 0x16, 0x2F] :
      List Byte) ∧
    ∀ k < 4, (0x0B : Byte).getLsbD k = (0xFB : Byte).getLsbD k := by decide

/-! ### Witnesses: BitVector operations -/

theorem witness_bvCreate : 0 < 1 ∧ 1 ≤ 1 ∧ busy.allocFails = false := by decide
theorem witness_created :
    resultOf (exec (.bvCreate 1) busy) = some (.vector 1) ∧
    resultOf (exec (.bmCreate 1 1) busy) = some (.matrix 5) := by decide
theorem witness_bit_operands :
    busy.vectors[0]? = some v11 ∧ v11.Good ∧ 0 < v11.length ∧ 11 < v11.length ∧ (0 : Nat) ≠ 11 := by
  decide
theorem witness_equal_vectors : v11.Good ∧ (BitVector.zero 12).Good ∧ (BitVector.zero 1).Good := by
  decide

/-! ### Witnesses: BitMatrix operations -/

theorem witness_bmCreate : (0 < 1 ∨ 8 < 1) ∧ (4 < 1 ∨ 0 < 1) ∧ 1 ≤ 1 ∧ busy.allocFails = false := by
  decide
theorem witness_cell_operands :
    busy.matrices[0]? = some m13 ∧ m13.Good ∧ 3 < m13.rows ∧ 7 < m13.cols ∧
    busy.matrix? .g = some Constants.rom.G ∧ 3 < Constants.rom.G.rows ∧ 7 < Constants.rom.G.cols ∧
    busy.matrix? .ht = some Constants.rom.HT ∧ 7 < Constants.rom.HT.rows ∧
    3 < Constants.rom.HT.cols := by decide
theorem witness_bmFromData : 0 < 1 ∧ 1 ≤ 8 ∧ 8 ≤ 8 ∧ busy.allocFails = false := by decide
theorem witness_bmToData : busy.matrix? .g = some Constants.rom.G ∧ 8 ≤ Constants.rom.G.cols := by
  decide
theorem witness_bmMul :
    busy.matrix? (.inst 2) = some a14 ∧ busy.matrix? (.inst 3) = some b14 ∧ a14.Good ∧ b14.Good ∧
    a14.cols = b14.rows ∧ busy.allocFails = false := by decide
/-- `[1,1]`, `[1,1]` and their sum `[0,0]` against `b14`; `b14`, `b14` and their sum against `a14`. -/
theorem witness_linear :
    a14.Good ∧ b14.Good ∧ (BitMatrix.zero 1 2).Good ∧ (BitMatrix.zero 2 2).Good ∧ a14.rows = 1 ∧
    a14.cols = b14.rows ∧ (BitMatrix.zero 1 2).rows = a14.rows ∧ (BitMatrix.zero 1 2).cols = a14.cols ∧
    (BitMatrix.zero 2 2).rows = b14.rows ∧ (BitMatrix.zero 2 2).cols = b14.cols := by
  decide
theorem witness_linear_sums :
    (∀ i < a14.rows, ∀ k < a14.cols,
      (BitMatrix.zero 1 2).cell i k = (a14.cell i k ^^ a14.cell i k)) ∧
    (∀ k < b14.rows, ∀ j < b14.cols,
      (BitMatrix.zero 2 2).cell k j = (b14.cell k j ^^ b14.cell k j)) ∧
    (BitMatrix.mul a14 b14).isSome = true ∧ (BitMatrix.mul (BitMatrix.zero 1 2) b14).isSome = true ∧
    (BitMatrix.mul a14 (BitMatrix.zero 2 2)).isSome = true := by decide

/-! ### Witnesses: codec operations -/

theorem witness_constants : busy.consts = Constants.rom ∧ State.reset.consts = Constants.rom ∧
    busy.allocFails = false := by decide
theorem witness_constants_immutable :
    busy.consts = State.reset.consts ∧ (nextOf (exec (.bmSet (.inst 0) 0 0) busy)).isSome = true := by
  decide
theorem witness_encode : busy.Performs (.encode 0xB) (.codeword 0xD2) :=
  ⟨_, rfl, by constructor <;> rfl, by decide +kernel, by decide +kernel, by decide +kernel⟩
theorem witness_syndromes : busy.Performs (.syndrome 0x01) (.index 7) ∧
    busy.Performs (.syndrome 0x80) (.index 1) :=
  ⟨⟨_, rfl, by constructor <;> rfl, by decide +kernel, by decide +kernel, by decide +kernel⟩,
   ⟨_, rfl, by constructor <;> rfl, by decide +kernel, by decide +kernel, by decide +kernel⟩⟩
theorem witness_decode_err : busy.Performs (.decode 0xD1) (.decoded .err 0xB) :=
  ⟨_, rfl, by constructor <;> rfl, by decide +kernel, by decide +kernel, by decide +kernel⟩
theorem witness_weights :
    weight 0x80 = 1 ∧ weight 0xC0 = 2 ∧ weight 0x03 = 2 ∧ weight 0x07 = 3 ∧ weight 0x0F = 4 ∧
    weight 0x87 = 4 ∧ Codec.encode Constants.rom.G 1 = 0x87 ∧ (1 : Nibble) ≠ 2 := by decide +kernel

/-! ### Witnesses: whole-machine rules -/

theorem witness_ports :
    (portFunction busy.consts 0x20 0x0B) = some (0xD2, 0b00) ∧
    (portFunction busy.consts 0x21 0xD1) = some (0x0B, 0b10) ∧
    (portFunction busy.consts 0x1F 0x00) = none ∧ (portFunction busy.consts 0x22 0x00) = none := by
  decide +kernel
theorem witness_violations :
    busy.config.undefTreatment = .refuse ∧ busy.allocFails = false ∧ v11.length ≤ 12 ∧
    (m13.rows ≤ 4 ∨ m13.cols ≤ 0) ∧ (m13.rows ≤ 0 ∨ m13.cols ≤ 8) ∧ Constants.rom.HT.cols < 8 ∧
    8 < 9 ∧ busy.matrix? (.inst 4) = some d14 ∧ d14.cols ≠ Constants.rom.HT.rows := by decide
/-- A state whose next allocation may fail, and one that faults, meet the hypotheses of the clauses too. -/
theorem witness_violations_elsewhere :
    fallible.config.undefTreatment = .refuse ∧ fallible.vectors[0]? = some v11 ∧ v11.length ≤ 12 ∧
    fallible.matrix? .ht = some Constants.rom.HT ∧ (Constants.rom.HT.rows ≤ 8 ∨ Constants.rom.HT.cols ≤ 0) ∧
    faulting.allocFails = false ∧ faulting.matrix? (.inst 4) = some d14 ∧
    faulting.matrix? .ht = some Constants.rom.HT := by decide
theorem witness_undef_treatment :
    busy.config.undefTreatment = .refuse ∧ faulting.config.undefTreatment = .fault ∧
    step (faulting.present (.unit 0x0400 { i := 12 })) = .fault (.undefinedBehaviour .bitIndex) :=
  ⟨rfl, rfl, rfl⟩
theorem witness_completes :
    busy.config.allocCanFail = false ∧ (nextOf (exec (.bvSet 0 11) busy)).isSome = true ∧
    (nextOf (exec (.bvSet 0 12) busy)).isSome = false := by decide
theorem witness_absent_operands :
    busy.vectors.length ≤ 1 ∧ busy.matrices.length ≤ 5 ∧ busy.matrix? .g = some Constants.rom.G := by
  decide
theorem witness_absent :
    resultOf (exec (.bvCreate 0) busy) = some .absent ∧ fallible.config.allocCanFail = true ∧
    resultOf (exec (.bvCreate 0) fallible) = some .absent ∧ (0 : Nat) ≤ 8 ∧ 8 ≤ 8 := by decide
theorem witness_alloc_can_fail :
    (nextOf (exec (.bvCreate 0) fallible)).isSome = true ∧
    (nextOf (exec (.bvSet 0 11) fallible)).isSome = true := by decide
theorem witness_failed_creation_first :
    8 < 9 ∧ busy.matrix? (.inst 4) = some d14 ∧ busy.matrix? .ht = some Constants.rom.HT ∧
    d14.cols ≠ Constants.rom.HT.rows := by decide
theorem witness_other_instances :
    (nextOf (exec (.bmSet (.inst 1) 7 3) busy)).isSome = true ∧ 0 < busy.vectors.length ∧
    0 < busy.matrices.length ∧ writtenVector (.bmSet (.inst 1) 7 3) ≠ some 0 ∧
    writtenMatrix (.bmSet (.inst 1) 7 3) ≠ some 0 := by decide
theorem witness_reads :
    (Instr.lookup 2).op ∈ ([.bvGet, .bmGet, .bmToData, .lookup] : List Op) ∧
    (nextOf (exec (.bvGet 0 11) busy)).isSome = true ∧
    (nextOf (exec (.bmGet .ht 7 3) busy)).isSome = true ∧
    (nextOf (exec (.bmToData .g) busy)).isSome = true ∧
    (nextOf (exec (.lookup 15) busy)).isSome = true := by decide

/-! ### Witnesses: the host's streams -/

theorem witness_stream_decodes : busy.Performs (.decode 0xD3) (.decoded .corrected 0xB) ∧
    busy.Performs (.decode 0x55) (.decoded .ok 0xA) :=
  ⟨⟨_, rfl, by constructor <;> rfl, by decide +kernel, by decide +kernel, by decide +kernel⟩,
   ⟨_, rfl, by constructor <;> rfl, by decide +kernel, by decide +kernel, by decide +kernel⟩⟩
theorem witness_stream_round_trip :
    busy.consts = Constants.rom ∧ ([0x01, 0x00] : List Byte).length = 2 * ([0xAB] : List Byte).length ∧
    ∀ e ∈ ([0x01, 0x00] : List Byte), weight e ≤ 1 := by decide

end Sys2Proof.Tests
end

section
/-! The state after reset, field by field, and what follows of it (10_state.md R27,
70_reset_and_hazards.md R141, R145; 00_scope.md R5). -/

namespace Sys2Proof.Machine

@[simp] theorem State.reset_vectors : State.reset.vectors = [] := rfl
@[simp] theorem State.reset_matrices : State.reset.matrices = [] := rfl
@[simp] theorem State.reset_dout : State.reset.dout = none := rfl
@[simp] theorem State.reset_status : State.reset.status = none := rfl
@[simp] theorem State.reset_allocCanFail : State.reset.config.allocCanFail = false := rfl
@[simp] theorem State.reset_undefTreatment : State.reset.config.undefTreatment = .refuse := rfl

/-- Settles O2, from the value reset gives each field. -/
theorem resetHasNothingElse : Obligations.ResetHasNothingElse :=
  ⟨State.reset_vectors, State.reset_matrices, State.reset_dout, State.reset_status,
    State.reset_allocCanFail, State.reset_undefTreatment⟩

end Sys2Proof.Machine
end

section
/-! The invariant of 10_state.md R17, R21, R22, R23: it holds at reset, and every step keeps it. What one
completed operation can do to the state is said once, in `Effect`, and the invariant follows from that. -/

namespace Sys2Proof.Machine

/-! ### The constants -/

/-- HAM.INIT's construction gives the contents of the read-only memory (R140, decision D10). -/
theorem Constants.build_eq_rom : Constants.build = Constants.rom := by decide

/-! ### One step -/

/-- A step does nothing with nothing presented, and otherwise performs the first operation presented. -/
theorem step_next_cases {s t : State} (h : step s = .next t) :
    (s.pending = [] ∧ t = s) ∨
      ∃ q rest i, s.pending = q :: rest ∧ q.decode = .op i ∧
        exec i { s with pending := rest } = .next t := by
  unfold step State.fetch at h
  cases hp : s.pending with
  | nil =>
    simp only [hp, Host.Outcome.next.injEq] at h
    exact .inl ⟨rfl, h.symm⟩
  | cons q rest =>
    simp only [hp] at h
    cases hq : q.decode with
    | op i =>
      simp only [hq] at h
      exact .inr ⟨q, rest, i, rfl, hq, h⟩
    | reject why => simp [hq] at h

/-! ### Created matrices are good -/

/-- What BM.CREATE's test lets through is the zero matrix of a shape with rows and columns (R81). -/
theorem BitMatrix.create_some {rows cols : Nat} {M : BitMatrix}
    (h : BitMatrix.create rows cols = some M) : M = BitMatrix.zero rows cols ∧ M.Good := by
  rw [BitMatrix.create_eq] at h
  split at h
  · cases h
  · obtain rfl := Option.some.inj h
    exact ⟨rfl, BitMatrix.zero_good (by omega) (by omega)⟩

theorem BitVector.create_good {length : Nat} {V : BitVector}
    (h : BitVector.create length = some V) : V.Good := by
  unfold BitVector.create at h
  split at h
  · cases h
  · obtain rfl := Option.some.inj h
    exact BitVector.zero_good (by omega)

theorem BitMatrix.fromData_good {length : Nat} {byte : Byte} {M : BitMatrix}
    (h : BitMatrix.fromData length byte = some M) : M.Good := by
  obtain ⟨Z, hZ, rfl⟩ := Option.map_eq_some_iff.1 h
  obtain ⟨rfl, good⟩ := BitMatrix.create_some hZ
  exact (BitMatrix.fill_spec good byte length (Nat.le_refl _)).1

theorem BitMatrix.mul_good {A B M : BitMatrix} (h : BitMatrix.mul A B = some M) : M.Good := by
  obtain ⟨Z, hZ, rfl⟩ := Option.map_eq_some_iff.1 h
  obtain ⟨rfl, good⟩ := BitMatrix.create_some hZ
  exact (BitMatrix.mulInto_spec (A := A) (B := B) good (Nat.le_refl _) rfl).1

/-! ### What a completed operation does -/

/-- The state after operation `i` on vector `v` left `V` there (R72 to R74). -/
def State.wroteVector (s : State) (v : Nat) (V : BitVector) : State :=
  (s.putVector v V).deliver (.vector v)

/-- The state after an operation on matrix `h` left `M` there (R82, R83). -/
def State.wroteMatrix (s : State) (h : Nat) (M : BitMatrix) : State :=
  (s.putMatrix h M).deliver (.matrix h)

/-- The result is the handle of a vector or matrix: only the creations and the writes deliver one (R51). -/
def Result.isHandle : Result → Bool
  | .vector _ => true
  | .matrix _ => true
  | _ => false

theorem State.denotes_of_not_handle (s : State) {r : Result} (h : r.isHandle = false) :
    s.denotes r = true := by
  cases r with
  | vector | matrix => cases h
  | _ => rfl

/-- The six ways in which operation `i` can complete in `s`. -/
inductive Effect (i : Instr) (s : State) : State → Prop where
  /-- a read or a codec operation: a result that is no handle, and nothing else -/
  | delivers {r : Result} (noHandle : r.isHandle = false) : Effect i s (s.deliver r)
  /-- a creation of a vector, failed or not -/
  | createsVector {V? : Option BitVector} (good : ∀ V, V? = some V → V.Good) :
      Effect i s (s.installVector V?)
  /-- a creation of a matrix, failed or not -/
  | createsMatrix {M? : Option BitMatrix} (good : ∀ M, M? = some M → M.Good) :
      Effect i s (s.installMatrix M?)
  /-- a write of one bit of an existing vector -/
  | writesVector {v : Nat} {V V' : BitVector} (written : writtenVector i = some v)
      (held : s.vectors[v]? = some V) (good : V.Good → V'.Good) : Effect i s (s.wroteVector v V')
  /-- a write of one cell of an existing matrix -/
  | writesMatrix {h : Nat} {M M' : BitMatrix} (written : writtenMatrix i = some h)
      (held : s.matrices[h]? = some M) (good : M.Good → M'.Good) : Effect i s (s.wroteMatrix h M')
  /-- HAM.INIT -/
  | rebuilds (init : i = .hamInit) :
      Effect i s ({ s with consts := Constants.build }.deliver (.constants Constants.build))

/-- Every operation that completes does so in one of these ways. -/
theorem exec_effect {i : Instr} {s t : State} (h : exec i s = .next t) : Effect i s t := by
  cases i with
  | bvCreate length =>
    cases h
    exact .createsVector fun _ => BitVector.create_good
  | bvSet v i =>
    obtain ⟨V, hV, hi, ⟨⟩⟩ := State.onBit_next h
    exact .writesVector rfl hV fun g => BitVector.setBit_good g hi
  | bvClr v i =>
    obtain ⟨V, hV, hi, ⟨⟩⟩ := State.onBit_next h
    exact .writesVector rfl hV fun g => BitVector.clrBit_good g hi
  | bvXor v i value =>
    obtain ⟨V, hV, hi, ⟨⟩⟩ := State.onBit_next h
    exact .writesVector rfl hV fun g => BitVector.xorBit_good g hi
  | bvGet v i =>
    obtain ⟨V, -, -, ⟨⟩⟩ := State.onBit_next h
    exact .delivers rfl
  | bmCreate rows cols =>
    cases h
    exact .createsMatrix fun _ hM => (BitMatrix.create_some hM).2
  | bmSet m r c =>
    obtain ⟨n, M, rfl, hM, hr, ⟨⟩⟩ := State.onWritableCell_next h
    exact .writesMatrix rfl hM fun g => BitMatrix.setCell_good g hr
  | bmClr m r c =>
    obtain ⟨n, M, rfl, hM, hr, ⟨⟩⟩ := State.onWritableCell_next h
    exact .writesMatrix rfl hM fun g => BitMatrix.clrCell_good g hr
  | bmGet m r c =>
    obtain ⟨M, -, h⟩ := State.onMatrix_next h
    split at h
    · cases h; exact .delivers rfl
    · exact absurd h (State.undefinedBehaviour_ne_next _ _ _)
  | bmFromData length byte =>
    simp only [exec, execBmFromData] at h
    split at h
    · cases h; exact .createsMatrix fun _ => BitMatrix.fromData_good
    · exact absurd h (State.undefinedBehaviour_ne_next _ _ _)
  | bmToData m =>
    obtain ⟨M, -, h⟩ := State.onMatrix_next h
    split at h
    · cases h; exact .delivers rfl
    · exact absurd h (State.undefinedBehaviour_ne_next _ _ _)
  | bmMul a b =>
    obtain ⟨A, -, h⟩ := State.onMatrix_next h
    obtain ⟨B, -, h⟩ := State.onMatrix_next h
    split at h
    · cases h; exact .createsMatrix fun _ => BitMatrix.mul_good
    · exact absurd h (State.undefinedBehaviour_ne_next _ _ _)
  | encode n => cases h; exact .delivers rfl
  | decode w => cases h; exact .delivers rfl
  | syndrome w => cases h; exact .delivers rfl
  | lookup idx => cases h; exact .delivers rfl
  | correct e w => cases h; exact .delivers rfl
  | extract w => cases h; exact .delivers rfl
  | hamInit => cases h; exact .rebuilds rfl

/-! ### The invariant -/

/-- The part of the invariant that speaks of what the state holds, not of what it delivers. -/
structure State.HoldsGood (s : State) : Prop where
  consts : s.consts = Constants.rom
  vectors : ∀ V ∈ s.vectors, V.Good
  matrices : ∀ M ∈ s.matrices, M.Good

theorem State.Inv.holdsGood {s : State} (h : s.Inv) : s.HoldsGood := by
  obtain ⟨consts, vectors, matrices, -⟩ := h
  exact ⟨consts, vectors, matrices⟩

/-- On good contents, delivering a result that denotes something held establishes the invariant. -/
theorem State.HoldsGood.deliver {s : State} (h : s.HoldsGood) {r : Result}
    (hr : s.denotes r = true) : (s.deliver r).Inv :=
  ⟨h.consts, h.vectors, h.matrices, hr, rfl, rfl⟩

theorem State.HoldsGood.installVector {s : State} (h : s.HoldsGood) {V? : Option BitVector}
    (good : ∀ V, V? = some V → V.Good) : (s.installVector V?).Inv := by
  obtain ⟨dout, status⟩ := State.installVector_ports s V?
  rcases State.installVector_cases s V? with d | ⟨V, hV, a⟩
  · refine ⟨d.consts ▸ h.consts, d.vectors ▸ h.vectors, d.matrices ▸ h.matrices, ?_⟩
    rw [d.result, dout, status]
    exact ⟨rfl, rfl, rfl⟩
  · refine ⟨a.consts ▸ h.consts, ?_, a.matrices ▸ h.matrices, ?_⟩
    · rw [a.vectors]
      exact List.forall_mem_append.2 ⟨h.vectors, by simpa using good V hV⟩
    · rw [a.result, dout, status]
      exact ⟨by simp [State.denotes, a.vectors], rfl, rfl⟩

theorem State.HoldsGood.installMatrix {s : State} (h : s.HoldsGood) {M? : Option BitMatrix}
    (good : ∀ M, M? = some M → M.Good) : (s.installMatrix M?).Inv := by
  obtain ⟨dout, status⟩ := State.installMatrix_ports s M?
  rcases State.installMatrix_cases s M? with d | ⟨M, hM, a⟩
  · refine ⟨d.consts ▸ h.consts, d.vectors ▸ h.vectors, d.matrices ▸ h.matrices, ?_⟩
    rw [d.result, dout, status]
    exact ⟨rfl, rfl, rfl⟩
  · refine ⟨a.consts ▸ h.consts, a.vectors ▸ h.vectors, ?_, ?_⟩
    · rw [a.matrices]
      exact List.forall_mem_append.2 ⟨h.matrices, by simpa using good M hM⟩
    · rw [a.result, dout, status]
      exact ⟨by simp [State.denotes, a.matrices], rfl, rfl⟩

/-- Replacing one element of a list by one with a property that all the others have. -/
theorem forall_mem_set {α : Type} {p : α → Prop} {l : List α} {x : α} (n : Nat)
    (h : ∀ a ∈ l, p a) (hx : p x) : ∀ a ∈ l.set n x, p a := fun a ha =>
  (List.mem_or_eq_of_mem_set ha).elim (h a) (· ▸ hx)

theorem State.HoldsGood.wroteVector {s : State} (h : s.HoldsGood) {v : Nat} {V V' : BitVector}
    (held : s.vectors[v]? = some V) (good : V.Good → V'.Good) : (s.wroteVector v V').Inv := by
  have hv : v < s.vectors.length := (List.getElem?_eq_some_iff.1 held).1
  have hV' : V'.Good := good (h.vectors V (List.mem_of_getElem? held))
  have kept : (s.putVector v V').HoldsGood :=
    ⟨h.consts, forall_mem_set v h.vectors hV', h.matrices⟩
  exact kept.deliver (by simpa [State.denotes] using hv)

theorem State.HoldsGood.wroteMatrix {s : State} (h : s.HoldsGood) {n : Nat} {M M' : BitMatrix}
    (held : s.matrices[n]? = some M) (good : M.Good → M'.Good) : (s.wroteMatrix n M').Inv := by
  have hn : n < s.matrices.length := (List.getElem?_eq_some_iff.1 held).1
  have hM' : M'.Good := good (h.matrices M (List.mem_of_getElem? held))
  have kept : (s.putMatrix n M').HoldsGood :=
    ⟨h.consts, h.vectors, forall_mem_set n h.matrices hM'⟩
  exact kept.deliver (by simpa [State.denotes] using hn)

/-- Every way in which an operation can complete establishes the invariant. -/
theorem Effect.inv {i : Instr} {s t : State} (e : Effect i s t) (h : s.HoldsGood) : t.Inv := by
  cases e with
  | delivers noHandle => exact h.deliver (s.denotes_of_not_handle noHandle)
  | createsVector good => exact h.installVector good
  | createsMatrix good => exact h.installMatrix good
  | writesVector _ held good => exact h.wroteVector held good
  | writesMatrix _ held good => exact h.wroteMatrix held good
  | rebuilds _ =>
    have kept : State.HoldsGood { s with consts := Constants.build } :=
      ⟨Constants.build_eq_rom, h.vectors, h.matrices⟩
    exact kept.deliver rfl

/-- Settles O4: what the state holds stays good, and the operation performed delivers no
handle or one that denotes something held. -/
theorem stepKeepsInvariant : Obligations.StepKeepsInvariant := by
  unfold Obligations.StepKeepsInvariant
  intro s t inv h
  rcases step_next_cases h with ⟨-, rfl⟩ | ⟨q, rest, i, -, -, h⟩
  · exact inv
  · have kept : State.HoldsGood { s with pending := rest } :=
      ⟨inv.holdsGood.consts, inv.holdsGood.vectors, inv.holdsGood.matrices⟩
    exact (exec_effect h).inv kept

/-- Settles O3: at reset nothing has been created, and the result `idle` shows nothing at the ports. -/
theorem resetMeetsInvariant : Obligations.ResetMeetsInvariant :=
  ⟨rfl, by simp, by simp, rfl, rfl, rfl⟩

end Sys2Proof.Machine
end

section
/-! HAM.INIT (42_codec_encoder.md R95): the constants it constructs. -/

namespace Sys2Proof.Machine

/-- The cells of `G` are those of its formula (10_state.md R12). -/
theorem Constants.rom_G_cell :
    ∀ r < 4, ∀ c < 8, Constants.rom.G.cell r c = gOne r c := by decide

/-- The cells of `HT` are those of its formula (10_state.md R14). -/
theorem Constants.rom_HT_cell :
    ∀ r < 8, ∀ c < 4, Constants.rom.HT.cell r c = htOne r c := by decide

theorem Constants.rom_G_units : Constants.rom.G.vec.units = [0x87, 0x4B, 0x2D, 0x1E] := by decide

theorem Constants.rom_HT_units : Constants.rom.HT.vec.units = [0x7B, 0xDE, 0x84, 0x21] := by decide

theorem gOne_iff (r c : Nat) : gOne r c = true ↔ (c < 4 ∧ r = c) ∨ (4 ≤ c ∧ r ≠ c - 4) := by
  simp [gOne]

theorem htOne_iff (r c : Nat) : htOne r c = true ↔ (r < 4 ∧ r ≠ c) ∨ (4 ≤ r ∧ c = r - 4) := by
  simp [htOne]

/-- HAM.INIT installs and delivers the contents of the read-only memory. -/
theorem exec_hamInit (s : State) : exec .hamInit s =
    .next ({ s with consts := Constants.rom }.deliver (.constants Constants.rom)) := by
  change execHamInit s = _
  rw [execHamInit, Constants.build_eq_rom]

/-- Settles O31: the construction gives the read-only memory, whose cells and units are known. -/
theorem hamInitBuildsTheConstants : Obligations.HamInitBuildsTheConstants := by
  unfold Obligations.HamInitBuildsTheConstants
  intro s
  refine ⟨_, exec_hamInit s, rfl, rfl, rfl, rfl, fun r hr c hc => ?_, fun r hr c hc => ?_,
    Constants.rom_G_units, Constants.rom_HT_units, rfl, rfl, rfl, rfl, rfl, rfl, rfl, rfl, rfl, fun h => ?_⟩
  · rw [← gOne_iff, ← Constants.rom_G_cell r hr c hc]; rfl
  · rw [← htOne_iff, ← Constants.rom_HT_cell r hr c hc]; rfl
  · exact ⟨h.symm, rfl, rfl, rfl, rfl, rfl⟩

end Sys2Proof.Machine
end

section
/-! The laws of the single-bit operations on a vector (40_bitvector.md R76). -/

namespace Sys2Proof.Machine

/-! ### On values -/

theorem BitVector.setBit_setBit {V : BitVector} (h : V.Good) {i : Nat} (hi : i < V.length) :
    (V.setBit i).setBit i = V.setBit i := by
  have g := BitVector.setBit_good h hi
  refine BitVector.ext_bits (BitVector.setBit_good g hi) g rfl fun j _ => ?_
  simp [BitVector.bit_setBit g.wf, BitVector.bit_setBit h.wf]

theorem BitVector.clrBit_clrBit {V : BitVector} (h : V.Good) {i : Nat} (hi : i < V.length) :
    (V.clrBit i).clrBit i = V.clrBit i := by
  have g := BitVector.clrBit_good h hi
  refine BitVector.ext_bits (BitVector.clrBit_good g hi) g rfl fun j _ => ?_
  simp [BitVector.bit_clrBit g.wf, BitVector.bit_clrBit h.wf]

theorem BitVector.xorBit_true_twice {V : BitVector} (h : V.Good) {i : Nat} (hi : i < V.length) :
    (V.xorBit i true).xorBit i true = V := by
  have g := BitVector.xorBit_good (b := true) h hi
  refine BitVector.ext_bits (BitVector.xorBit_good g hi) h rfl fun j _ => ?_
  rw [BitVector.bit_xorBit g.wf, BitVector.bit_xorBit h.wf]
  split <;> simp

theorem BitVector.xorBit_false {V : BitVector} (h : V.Good) {i : Nat} (hi : i < V.length) :
    V.xorBit i false = V := by
  refine BitVector.ext_bits (BitVector.xorBit_good h hi) h rfl fun j _ => ?_
  rw [BitVector.bit_xorBit h.wf]
  split <;> simp

/-- Vectors of one length have the same units exactly when every unit of the storage reads alike. -/
theorem BitVector.units_eq_iff {V W : BitVector} (hl : V.length = W.length) :
    V.units = W.units ↔ ∀ u < V.unitCount, V.memRead u = W.memRead u := by
  have hc : W.unitCount = V.unitCount := by rw [BitVector.unitCount, BitVector.unitCount, hl]
  simp [BitVector.units, hc]

/-- The storage units determine every bit in range. -/
theorem BitVector.bit_eq_of_units {V W : BitVector} (hl : V.length = W.length)
    (hu : V.units = W.units) {i : Nat} (hi : i < V.length) : V.bit i = W.bit i := by
  rw [BitVector.bit, BitVector.bit,
    (BitVector.units_eq_iff hl).1 hu (unitOf i) (BitVector.unitOf_lt hi)]

/-! ### As operations -/

theorem exec_bvSet {s : State} {v i : Nat} {V : BitVector} (hV : s.vectors[v]? = some V)
    (hi : i < V.length) : exec (.bvSet v i) s = .next (s.wroteVector v (V.setBit i)) :=
  State.onBit_of hV hi

theorem exec_bvClr {s : State} {v i : Nat} {V : BitVector} (hV : s.vectors[v]? = some V)
    (hi : i < V.length) : exec (.bvClr v i) s = .next (s.wroteVector v (V.clrBit i)) :=
  State.onBit_of hV hi

theorem exec_bvXor {s : State} {v i : Nat} {b : Bit} {V : BitVector}
    (hV : s.vectors[v]? = some V) (hi : i < V.length) :
    exec (.bvXor v i b) s = .next (s.wroteVector v (V.xorBit i b)) :=
  State.onBit_of hV hi

/-- BV.GET delivers the bit and changes nothing else (R75). -/
theorem State.performs_bvGet {s : State} {v i : Nat} {V : BitVector}
    (hV : s.vectors[v]? = some V) (hi : i < V.length) {x : Bit} (hx : V.bit i = x) :
    s.Performs (.bvGet v i) (.bit x) :=
  ⟨s.deliver (.bit x), by rw [← hx]; exact State.onBit_of hV hi, ⟨rfl, rfl, rfl, rfl, rfl, rfl⟩,
    rfl, rfl, rfl⟩

@[simp] theorem State.wroteVector_vectors (s : State) (v : Nat) (V : BitVector) :
    (s.wroteVector v V).vectors = s.vectors.set v V := rfl

/-- A vector written is there. -/
theorem State.wroteVector_held {s : State} {v : Nat} {V : BitVector}
    (hV : s.vectors[v]? = some V) (V' : BitVector) :
    (s.wroteVector v V').vectors[v]? = some V' := by
  have hv : v < s.vectors.length := (List.getElem?_eq_some_iff.1 hV).1
  simp [hv]

/-- Of two writes of one vector the second stands. -/
theorem State.wroteVector_twice (s : State) (v : Nat) (V V' : BitVector) :
    ((s.wroteVector v V).wroteVector v V').vectors = s.vectors.set v V' := by
  simp

/-- Writing back the vector that is there leaves every vector as it was. -/
theorem State.set_held {s : State} {v : Nat} {V : BitVector} (hV : s.vectors[v]? = some V) :
    s.vectors.set v V = s.vectors := by
  obtain ⟨hv, rfl⟩ := List.getElem?_eq_some_iff.1 hV
  exact List.set_getElem_self hv

/-- The laws of an operation that writes a fixed value into bit `i` of vector `v`: the bit reads so
afterwards, another bit reads as before, and a repetition changes no vector. -/
theorem fixedWrite_laws {op : Instr} {f : BitVector → BitVector} {v i j : Nat} {x : Bit}
    (run : ∀ {s : State} {V : BitVector}, s.vectors[v]? = some V → i < V.length →
      exec op s = .next (s.wroteVector v (f V)))
    {s : State} {V : BitVector} (hV : s.vectors[v]? = some V) (length : (f V).length = V.length)
    (hi : i < V.length) (hj : j < V.length) (bit : (f V).bit i = x)
    (other : (f V).bit j = V.bit j) (idempotent : f (f V) = f V) :
    ∃ t t', exec op s = .next t ∧ t.Performs (.bvGet v i) (.bit x) ∧
      (∃ y, s.Performs (.bvGet v j) (.bit y) ∧ t.Performs (.bvGet v j) (.bit y)) ∧
      exec op t = .next t' ∧ t'.vectors = t.vectors := by
  have held := State.wroteVector_held hV (f V)
  refine ⟨_, _, run hV hi, State.performs_bvGet held (length ▸ hi) bit,
    ⟨V.bit j, State.performs_bvGet hV hj rfl, State.performs_bvGet held (length ▸ hj) other⟩,
    run held (length ▸ hi), ?_⟩
  rw [idempotent, State.wroteVector_vectors, State.set_held held]

/-- BV.XOR changes the bit it names by exclusive or and no other. -/
theorem bvXor_laws {s : State} {v i j : Nat} (b : Bit) {V : BitVector}
    (hV : s.vectors[v]? = some V) (g : V.Good) (hi : i < V.length) (hj : j < V.length)
    (hji : j ≠ i) :
    ∃ t, exec (.bvXor v i b) s = .next t ∧
      (∃ x, s.Performs (.bvGet v i) (.bit x) ∧ t.Performs (.bvGet v i) (.bit (x ^^ b))) ∧
      (∃ x, s.Performs (.bvGet v j) (.bit x) ∧ t.Performs (.bvGet v j) (.bit x)) := by
  have held := State.wroteVector_held hV (V.xorBit i b)
  refine ⟨_, exec_bvXor hV hi,
    ⟨V.bit i, State.performs_bvGet hV hi rfl, State.performs_bvGet held hi ?_⟩,
    ⟨V.bit j, State.performs_bvGet hV hj rfl, State.performs_bvGet held hj ?_⟩⟩
  · simp [BitVector.bit_xorBit g.wf]
  · simp [BitVector.bit_xorBit g.wf, hji]

/-- BV.XOR with 1 undoes itself. -/
theorem bvXor_true_twice {s : State} {v i : Nat} {V : BitVector} (hV : s.vectors[v]? = some V)
    (g : V.Good) (hi : i < V.length) :
    ∃ t t', exec (.bvXor v i true) s = .next t ∧ exec (.bvXor v i true) t = .next t' ∧
      t'.vectors = s.vectors := by
  refine ⟨_, _, exec_bvXor hV hi, exec_bvXor (State.wroteVector_held hV _) hi, ?_⟩
  rw [BitVector.xorBit_true_twice g hi, State.wroteVector_twice, State.set_held hV]

/-- BV.XOR with 0 leaves every vector as it was. -/
theorem bvXor_false {s : State} {v i : Nat} {V : BitVector} (hV : s.vectors[v]? = some V)
    (g : V.Good) (hi : i < V.length) :
    ∃ t, exec (.bvXor v i false) s = .next t ∧ t.vectors = s.vectors := by
  refine ⟨_, exec_bvXor hV hi, ?_⟩
  rw [BitVector.xorBit_false g hi, State.wroteVector_vectors, State.set_held hV]

/-- Good vectors are equal exactly when length and storage units agree. -/
theorem BitVector.length_units_iff_eq {V W : BitVector} (hV : V.Good) (hW : W.Good) :
    (V.length = W.length ∧ V.units = W.units) ↔ V = W :=
  ⟨fun ⟨hl, hu⟩ => BitVector.ext_bits hV hW hl fun _ => BitVector.bit_eq_of_units hl hu,
    fun h => h ▸ ⟨rfl, rfl⟩⟩

/-- Settles O20, from the value laws through the state each operation leaves. -/
theorem bitVectorLaws : Obligations.BitVectorLaws := by
  unfold Obligations.BitVectorLaws
  constructor
  · intro s v i j b V hV g hi hj hji
    refine ⟨?_, ?_, bvXor_laws b hV g hi hj hji, bvXor_true_twice hV g hi, bvXor_false hV g hi⟩
    · exact fixedWrite_laws exec_bvSet hV rfl hi hj (by simp [BitVector.bit_setBit g.wf])
        (by simp [BitVector.bit_setBit g.wf, hji]) (BitVector.setBit_setBit g hi)
    · exact fixedWrite_laws exec_bvClr hV rfl hi hj (by simp [BitVector.bit_clrBit g.wf])
        (by simp [BitVector.bit_clrBit g.wf, hji]) (BitVector.clrBit_clrBit g hi)
  · intro V W hV hW
    refine ⟨BitVector.length_units_iff_eq hV hW, ?_⟩
    rw [BitVector.length_units_iff_eq hV hW]
    exact ⟨fun h => h ▸ ⟨rfl, fun _ _ => rfl⟩, fun ⟨hl, hb⟩ => BitVector.ext_bits hV hW hl hb⟩

end Sys2Proof.Machine
end

section
/-! The results of the vector operations, one by one (40_bitvector.md R71 to R75): what each makes of its
vector, and that it leaves the rest of the block alone. -/

namespace Sys2Proof.Machine

/-! ### Creation -/

/-- BV.CREATE's test lets no length below 1 through (R71). -/
theorem BitVector.create_of_lt {length : Nat} (h : length < 1) :
    BitVector.create length = none := if_pos h

/-- BV.CREATE's test lets every other length through, as the zero vector (R71). -/
theorem BitVector.create_of_le {length : Nat} (h : 1 ≤ length) :
    BitVector.create length = some (BitVector.zero length) := if_neg (Nat.not_lt.2 h)

theorem exec_bvCreate (length : Nat) (s : State) :
    exec (.bvCreate length) s = .next (s.installVector (BitVector.create length)) := rfl

/-- Where the parameter test failed, the creation delivers `absent` (60_exceptions.md R127). -/
theorem State.installVector_none (s : State) : DeliversAbsent s (s.installVector none) :=
  ⟨rfl, rfl, rfl, rfl, rfl, rfl⟩

/-- Settles O13: the parameter test decides between `absent` and the new zero vector. -/
theorem bvCreateResult : Obligations.BvCreateResult := by
  unfold Obligations.BvCreateResult
  intro length s
  refine ⟨fun hl => ⟨_, exec_bvCreate length s, ?_⟩,
    fun hl ha => ⟨_, BitVector.zero length, exec_bvCreate length s, ?_, rfl, rfl,
      BitVector.zero_memRead length, BitVector.zero_bit length⟩⟩
  · rw [BitVector.create_of_lt hl]
    exact State.installVector_none s
  · rw [BitVector.create_of_le hl]
    exact State.installVector_adds ha _

/-! ### Writes of one bit -/

/-- A vector of the same length that reads alike at every unit but `u`, put in place of vector `v`,
changes that unit only. -/
theorem State.onlyVectorUnit_wroteVector {s : State} {v u : Nat} {V V' : BitVector}
    (hV : s.vectors[v]? = some V) (length : V'.length = V.length)
    (units : ∀ u', u' ≠ u → V'.memRead u' = V.memRead u') :
    OnlyVectorUnit s (s.wroteVector v V') v u where
  consts := rfl
  count := by simp
  others v' hv' := by simp [List.getElem?_set_ne hv'.symm]
  length := by simp only [State.wroteVector_held hV, hV, Option.map_some, length]
  units u' hu' := by simp only [State.wroteVector_held hV, hV, Option.map_some, units u' hu']
  matrices := rfl
  pending := rfl
  config := rfl
  draws := rfl

/-- The result of an operation that replaces vector `V` by `V'`, where `V'` has the bits `bits` and
differs from `V` in one unit only: the common part of R72, R73 and R74. -/
theorem bitWrite_result {op : Instr} {s : State} {v u : Nat} {V V' : BitVector} {bits : Nat → Bit}
    (run : exec op s = .next (s.wroteVector v V')) (hV : s.vectors[v]? = some V)
    (length : V'.length = V.length) (bit : ∀ j, V'.bit j = bits j)
    (units : ∀ u', u' ≠ u → V'.memRead u' = V.memRead u') :
    ∃ t W, exec op s = .next t ∧ t.vectors[v]? = some W ∧ (∀ j, W.bit j = bits j) ∧
      OnlyVectorUnit s t v u ∧ t.result = .vector v ∧ t.dout = none ∧ t.status = none :=
  ⟨_, V', run, State.wroteVector_held hV V', bit,
    State.onlyVectorUnit_wroteVector hV length units, rfl, rfl, rfl⟩

/-- Settles O16, from the value laws of `setBit`. -/
theorem bvSetResult : Obligations.BvSetResult := by
  unfold Obligations.BvSetResult
  intro s v i V hV g hi
  exact bitWrite_result (exec_bvSet hV hi) hV (BitVector.setBit_length V i)
    (BitVector.bit_setBit g.wf i) fun _ => BitVector.setBit_memRead_other g.wf

/-- Settles O17, from the value laws of `clrBit`. -/
theorem bvClrResult : Obligations.BvClrResult := by
  unfold Obligations.BvClrResult
  intro s v i V hV g hi
  exact bitWrite_result (exec_bvClr hV hi) hV (BitVector.clrBit_length V i)
    (BitVector.bit_clrBit g.wf i) fun _ => BitVector.clrBit_memRead_other g.wf

/-- Settles O18, from the value laws of `xorBit`. -/
theorem bvXorResult : Obligations.BvXorResult := by
  unfold Obligations.BvXorResult
  intro s v i b V hV g hi
  refine bitWrite_result (exec_bvXor hV hi) hV (BitVector.xorBit_length V i b) (fun j => ?_)
    fun _ => BitVector.xorBit_memRead_other g.wf
  rw [BitVector.bit_xorBit g.wf]
  by_cases hj : j = i
  · rw [hj]
  · rw [if_neg hj, if_neg hj]

/-! ### The read of one bit -/

/-- Settles O19: the statement's expression is the model's `BitVector.bit`. -/
theorem bvGetResult : Obligations.BvGetResult := by
  unfold Obligations.BvGetResult
  intro s v i V hV hi
  exact State.performs_bvGet hV hi rfl

end Sys2Proof.Machine
end

section
/-! The results of the matrix operations, one by one (41_bitmatrix.md R81 to R88): what each makes of its
matrix or of the new one, and that it leaves the rest of the block alone. -/

namespace Sys2Proof.Machine

/-! ### Creation -/

/-- BM.CREATE's test lets no shape without rows or columns through (R81). -/
theorem BitMatrix.create_of_lt {rows cols : Nat} (h : rows < 1 ∨ cols < 1) :
    BitMatrix.create rows cols = none := if_pos h

/-- BM.CREATE's test lets every other shape through, as the zero matrix (R81). -/
theorem BitMatrix.create_of_le {rows cols : Nat} (hr : 1 ≤ rows) (hc : 1 ≤ cols) :
    BitMatrix.create rows cols = some (BitMatrix.zero rows cols) := by
  rw [BitMatrix.create_eq, if_neg (by omega)]

theorem exec_bmCreate (rows cols : Nat) (s : State) :
    exec (.bmCreate rows cols) s = .next (s.installMatrix (BitMatrix.create rows cols)) := rfl

/-- Where the parameter test failed, the creation delivers `absent` (60_exceptions.md R127). -/
theorem State.installMatrix_none (s : State) : DeliversAbsent s (s.installMatrix none) :=
  ⟨rfl, rfl, rfl, rfl, rfl, rfl⟩

/-- Settles O21: the parameter test decides between `absent` and the new zero matrix. -/
theorem bmCreateResult : Obligations.BmCreateResult := by
  unfold Obligations.BmCreateResult
  intro rows cols s
  refine ⟨fun h => ⟨_, exec_bmCreate rows cols s, ?_⟩,
    fun hr hc ha => ⟨_, BitMatrix.zero rows cols, exec_bmCreate rows cols s, ?_, rfl, rfl, rfl,
      BitVector.zero_memRead _, BitMatrix.zero_cell rows cols⟩⟩
  · rw [BitMatrix.create_of_lt h]
    exact State.installMatrix_none s
  · rw [BitMatrix.create_of_le hr hc]
    exact State.installMatrix_adds ha _

/-! ### BM.FROMDATA -/

theorem exec_bmFromData {length : Nat} (h : length ≤ 8) (byte : Byte) (s : State) :
    exec (.bmFromData length byte) s =
      .next (s.installMatrix (BitMatrix.fromData length byte)) := if_pos (.inl h)

theorem BitMatrix.fromData_of_lt {length : Nat} (h : length < 1) (byte : Byte) :
    BitMatrix.fromData length byte = none := by
  rw [BitMatrix.fromData, BitMatrix.create_of_lt (.inr h), Option.map_none]

theorem BitMatrix.fromData_of_le {length : Nat} (h : 1 ≤ length) (byte : Byte) :
    BitMatrix.fromData length byte =
      some ((BitMatrix.zero 1 length).fillFromData length byte) := by
  rw [BitMatrix.fromData, BitMatrix.create_of_le (Nat.le_refl 1) h, Option.map_some]

/-- Settles O25: the loop over all columns of a zero row copies the bits of the byte. -/
theorem bmFromDataResult : Obligations.BmFromDataResult := by
  unfold Obligations.BmFromDataResult
  intro length byte s
  constructor
  · intro hl
    refine ⟨_, exec_bmFromData (by omega) byte s, ?_⟩
    rw [BitMatrix.fromData_of_lt hl]
    exact State.installMatrix_none s
  · intro hl hl8 ha
    obtain ⟨good, rows, cols, cells⟩ := BitMatrix.fill_spec
      (BitMatrix.zero_good (Nat.le_refl 1) hl) byte length (Nat.le_refl length)
    refine ⟨_, _, exec_bmFromData hl8 byte s, ?_, good, rows, cols, fun i hi => ?_⟩
    · rw [BitMatrix.fromData_of_le hl]
      exact State.installMatrix_adds ha _
    · simp [cells 0 i hi, hi]

/-! ### BM.MUL -/

theorem exec_bmMul {s : State} {a b : MatRef} {A B : BitMatrix} (hA : s.matrix? a = some A)
    (hB : s.matrix? b = some B) (h : A.cols = B.rows) :
    exec (.bmMul a b) s = .next (s.installMatrix (BitMatrix.mul A B)) :=
  (State.onMatrix_of hA).trans ((State.onMatrix_of hB).trans (if_pos (.inl h)))

/-- The product accumulates into the zero matrix of its shape (R88). -/
theorem BitMatrix.mul_of_good {A B : BitMatrix} (hA : A.Good) (hB : B.Good) :
    BitMatrix.mul A B = some (BitMatrix.mulInto A B (BitMatrix.zero A.rows B.cols)) := by
  rw [BitMatrix.mul, BitMatrix.create_of_le hA.1 hB.2.1, Option.map_some]

/-- Settles O28: the three loops add the sums of products to a zero matrix. -/
theorem bmMulResult : Obligations.BmMulResult := by
  unfold Obligations.BmMulResult
  intro s a b A B hA hB gA gB h ha
  obtain ⟨good, rows, cols, cells⟩ := BitMatrix.mulInto_spec (A := A) (B := B)
    (BitMatrix.zero_good gA.1 gB.2.1) (Nat.le_refl A.rows) rfl
  refine ⟨_, _, exec_bmMul hA hB h, ?_, good, rows, cols, fun i hi j hj => ?_⟩
  · rw [BitMatrix.mul_of_good gA gB]
    exact State.installMatrix_adds ha _
  · rw [cells i j hi hj, BitMatrix.zero_cell, Bool.false_xor]

/-! ### Writes of one cell -/

theorem exec_bmSet {s : State} {h r c : Nat} {M : BitMatrix} (hM : s.matrices[h]? = some M)
    (hr : M.inRange r c) :
    exec (.bmSet (.inst h) r c) s = .next (s.wroteMatrix h (M.setCell r c)) := by
  change execBmSet (.inst h) r c s = _
  rw [execBmSet, State.onWritableCell_of hM hr]
  rfl

theorem exec_bmClr {s : State} {h r c : Nat} {M : BitMatrix} (hM : s.matrices[h]? = some M)
    (hr : M.inRange r c) :
    exec (.bmClr (.inst h) r c) s = .next (s.wroteMatrix h (M.clrCell r c)) := by
  change execBmClr (.inst h) r c s = _
  rw [execBmClr, State.onWritableCell_of hM hr]
  rfl

@[simp] theorem State.wroteMatrix_matrices (s : State) (h : Nat) (M : BitMatrix) :
    (s.wroteMatrix h M).matrices = s.matrices.set h M := rfl

/-- A matrix written is there. -/
theorem State.wroteMatrix_held {s : State} {h : Nat} {M : BitMatrix}
    (hM : s.matrices[h]? = some M) (M' : BitMatrix) :
    (s.wroteMatrix h M').matrices[h]? = some M' := by
  have hh : h < s.matrices.length := (List.getElem?_eq_some_iff.1 hM).1
  simp [hh]

/-- A matrix with another backing vector, of the same length and reading alike at every unit but `u`,
put in place of matrix `h`, changes that unit only. -/
theorem State.onlyMatrixUnit_wroteMatrix {s : State} {h u : Nat} {M : BitMatrix} {V' : BitVector}
    (hM : s.matrices[h]? = some M) (length : V'.length = M.vec.length)
    (units : ∀ u', u' ≠ u → V'.memRead u' = M.vec.memRead u') :
    OnlyMatrixUnit s (s.wroteMatrix h { M with vec := V' }) h u where
  consts := rfl
  vectors := rfl
  count := by simp
  others h' hh' := by simp [List.getElem?_set_ne hh'.symm]
  shape := by simp only [State.wroteMatrix_held hM, hM, Option.map_some, length]
  units u' hu' := by simp only [State.wroteMatrix_held hM, hM, Option.map_some, units u' hu']
  pending := rfl
  config := rfl
  draws := rfl

/-- The result of an operation that writes `x` to cell `(r,c)` of matrix `M` by replacing its backing
vector by `V'`: the common part of R82 and R83. -/
theorem cellWrite_result {op : Instr} {s : State} {h r c : Nat} {x : Bit} {M : BitMatrix}
    {V' : BitVector} (run : exec op s = .next (s.wroteMatrix h { M with vec := V' }))
    (hM : s.matrices[h]? = some M) (length : V'.length = M.vec.length)
    (cell : ∀ r' c', c' < M.cols → BitMatrix.cell { M with vec := V' } r' c' =
      if r' = r ∧ c' = c then x else M.cell r' c')
    (bit : ∀ j, V'.bit j = if j = M.index r c then x else M.vec.bit j)
    (units : ∀ u, u ≠ unitOf (M.index r c) → V'.memRead u = M.vec.memRead u) :
    ∃ t M', exec op s = .next t ∧ t.matrices[h]? = some M' ∧
      (∀ r' < M.rows, ∀ c' < M.cols,
        M'.cell r' c' = if r' = r ∧ c' = c then x else M.cell r' c') ∧
      (∀ j, M'.vec.bit j = if j = r * M.cols + c then x else M.vec.bit j) ∧
      OnlyMatrixUnit s t h ((r * M.cols + c) / 8) ∧ t.result = .matrix h ∧ t.dout = none ∧
      t.status = none :=
  ⟨_, _, run, State.wroteMatrix_held hM _, fun r' _ c' hc' => cell r' c' hc', bit,
    State.onlyMatrixUnit_wroteMatrix hM length units, rfl, rfl, rfl⟩

/-- Settles O22, from the value laws of `setCell` and of `setBit` on its backing vector. -/
theorem bmSetResult : Obligations.BmSetResult := by
  unfold Obligations.BmSetResult
  intro s h r c M hM g hr hc
  exact cellWrite_result (exec_bmSet hM ⟨hr, hc⟩) hM (BitVector.setBit_length _ _)
    (fun _ _ hc' => BitMatrix.cell_setCell g.wf hc hc') (BitVector.bit_setBit g.wf _)
    fun _ => BitVector.setBit_memRead_other g.wf

/-- Settles O23, from the value laws of `clrCell` and of `clrBit` on its backing vector. -/
theorem bmClrResult : Obligations.BmClrResult := by
  unfold Obligations.BmClrResult
  intro s h r c M hM g hr hc
  exact cellWrite_result (exec_bmClr hM ⟨hr, hc⟩) hM (BitVector.clrBit_length _ _)
    (fun _ _ hc' => BitMatrix.cell_clrCell g.wf hc hc') (BitVector.bit_clrBit g.wf _)
    fun _ => BitVector.clrBit_memRead_other g.wf

/-! ### Reads -/

/-- An operation whose only effect is to deliver `r` performs it. -/
theorem State.performs_of_deliver {s : State} {i : Instr} {r : Result}
    (h : exec i s = .next (s.deliver r)) : s.Performs i r :=
  ⟨_, h, ⟨rfl, rfl, rfl, rfl, rfl, rfl⟩, rfl, rfl, rfl⟩

theorem exec_bmGet {s : State} {m : MatRef} {r c : Nat} {M : BitMatrix}
    (hM : s.matrix? m = some M) (hr : M.inRange r c) :
    exec (.bmGet m r c) s = .next (s.deliver (.bit (M.cell r c))) :=
  (State.onMatrix_of hM).trans (if_pos hr)

theorem exec_bmToData {s : State} {m : MatRef} {M : BitMatrix} (hM : s.matrix? m = some M)
    (h : 8 ≤ M.cols) : exec (.bmToData m) s = .next (s.deliver (.byte M.toData)) :=
  (State.onMatrix_of hM).trans (if_pos h)

/-- Settles O24: the statement's expression is the model's `BitMatrix.cell`. -/
theorem bmGetResult : Obligations.BmGetResult := by
  unfold Obligations.BmGetResult
  intro s m r c M hM hr hc
  exact State.performs_of_deliver (exec_bmGet hM ⟨hr, hc⟩)

/-- A byte assembled by a loop that ors bit `bits i` into position `place i`: position `p` is 1 exactly
when some bit placed there is (R86, 43_decoder.md R103). -/
theorem getLsbD_assembled (bits : Nat → Bit) (place : Nat → Nat) {p : Nat} (hp : p < 8) (n : Nat) :
    ((List.range n).foldl
      (fun x i => x ||| ((BitVec.ofBool (bits i)).setWidth 8 <<< place i)) 0x00#8).getLsbD p = true ↔
      ∃ i < n, place i = p ∧ bits i = true := by
  induction n with
  | zero => simp
  | succ n ih =>
    have last : ((BitVec.ofBool (bits n)).setWidth 8 <<< place n).getLsbD p = true ↔
        place n = p ∧ bits n = true := by
      rw [shifted_bit]
      cases bits n <;> simp [getLsbD_bitMask hp, eq_comm]
    rw [List.range_succ, List.foldl_append, List.foldl_cons, List.foldl_nil, BitVec.getLsbD_or,
      Bool.or_eq_true, ih, last, Nat.exists_lt_succ_right]

/-- BM.TODATA's byte has column `i` of row 0 at position `7 - i` (R86). -/
theorem BitMatrix.getLsbD_toData (M : BitMatrix) {i : Nat} (hi : i < 8) :
    M.toData.getLsbD (7 - i) = M.cell 0 i := by
  rw [Bool.eq_iff_iff]
  refine (getLsbD_assembled (M.cell 0) (7 - ·) (by omega) 8).trans ⟨?_, fun h => ⟨i, hi, rfl, h⟩⟩
  rintro ⟨k, hk, hplace, h⟩
  obtain rfl : k = i := by omega
  exact h

/-- Settles O26: the delivered byte is `toData` of the operand. -/
theorem bmToDataResult : Obligations.BmToDataResult := by
  unfold Obligations.BmToDataResult
  intro s m M hM h
  exact ⟨M.toData, State.performs_of_deliver (exec_bmToData hM h),
    fun _ => M.getLsbD_toData⟩

end Sys2Proof.Machine
end

section
/-! The codec's operations and the values behind them: what each delivers, the transient row of a byte, and
its products with `G` and `HT` as exclusive-or sums (42_codec_encoder.md R96, 43_decoder.md R100). -/

namespace Sys2Proof.Machine

/-! ### What each operation delivers -/

theorem State.performs_syndrome (s : State) (w : Byte) :
    s.Performs (.syndrome w) (.index (Codec.syndrome s.consts.HT w)) :=
  State.performs_of_deliver rfl

theorem State.performs_lookup (s : State) (idx : Nibble) :
    s.Performs (.lookup idx) (.entry (Codec.lookup s.consts.errTab idx)) :=
  State.performs_of_deliver rfl

theorem State.performs_correct (s : State) (e : Entry) (w : Byte) :
    s.Performs (.correct e w) (.corrected (Codec.correct e w).1 (Codec.correct e w).2) :=
  State.performs_of_deliver rfl

theorem State.performs_extract (s : State) (w : Byte) :
    s.Performs (.extract w) (.nibble (Codec.extract w)) :=
  State.performs_of_deliver rfl

theorem State.performs_decode (s : State) (w : Byte) :
    s.Performs (.decode w) (.decoded (Codec.decode s.consts.HT s.consts.errTab w).1
      (Codec.decode s.consts.HT s.consts.errTab w).2) :=
  State.performs_of_deliver rfl

theorem exec_encode (n : Nibble) (s : State) :
    exec (.encode n) s = .next (s.deliver (.codeword (Codec.encode s.consts.G n))) := rfl

/-! ### The row of a byte -/

/-- The transient row of a byte is good and holds bit `i` of the byte in column `i`
(30_encoding.md R57). -/
theorem Codec.rowOf_spec {length : Nat} (hl : 1 ≤ length) (byte : Byte) :
    (Codec.rowOf length byte).Good ∧ (Codec.rowOf length byte).rows = 1 ∧
      (Codec.rowOf length byte).cols = length ∧
      ∀ i < length, (Codec.rowOf length byte).cell 0 i = byte.getLsbD i := by
  obtain ⟨good, rows, cols, cells⟩ := BitMatrix.fill_spec
    (BitMatrix.zero_good (Nat.le_refl 1) hl) byte length (Nat.le_refl length)
  refine ⟨good, rows, cols, fun i hi => (cells 0 i hi).trans ?_⟩
  simp [hi]

/-- Position `p` of BM.TODATA's byte is column `7 - p` (41_bitmatrix.md R86). -/
theorem BitMatrix.getLsbD_toData_column (M : BitMatrix) {p : Nat} (hp : p < 8) :
    M.toData.getLsbD p = M.cell 0 (7 - p) := by
  obtain ⟨c, hc, rfl⟩ : ∃ c < 8, p = 7 - c := ⟨7 - p, by omega, by omega⟩
  rw [M.getLsbD_toData hc, show 7 - (7 - c) = c by omega]

theorem Codec.cell_rowOf (w : Byte) {i : Nat} (hi : i < 8) :
    (Codec.rowOf 8 w).cell 0 i = w.getLsbD i := by
  obtain ⟨-, -, -, cells⟩ := Codec.rowOf_spec (by decide : 1 ≤ 8) w
  exact cells i hi

/-! ### Exclusive-or sums -/

theorem xorSum_false (n : Nat) : xorSum n (fun _ => false) = false := by
  induction n with
  | zero => rfl
  | succ n ih => rw [xorSum, ih]; rfl

theorem xorSum_xor (n : Nat) (e f : Nat → Bit) :
    xorSum n (fun k => e k ^^ f k) = (xorSum n e ^^ xorSum n f) := by
  induction n with
  | zero => rfl
  | succ n ih => simp only [xorSum, ih, Bool.xor_assoc, Bool.xor_left_comm]

theorem xorSum_and_left (n : Nat) (b : Bit) (e : Nat → Bit) :
    xorSum n (fun k => b && e k) = (b && xorSum n e) := by
  cases b
  · simp [xorSum_false]
  · simp

/-- The order of two sums can be exchanged. -/
theorem xorSum_comm (n m : Nat) (e : Nat → Nat → Bit) :
    xorSum n (fun i => xorSum m (e i)) = xorSum m (fun j => xorSum n fun i => e i j) := by
  induction n with
  | zero => exact (xorSum_false m).symm
  | succ n ih => simp only [xorSum, xorSum_xor, ih]

/-! ### The codec's products -/

/-- A cell of the codec's product is the sum of products (41_bitmatrix.md R88). -/
theorem Codec.cell_product {A B : BitMatrix} {r c : Nat} (hr : r < A.rows) (hc : c < B.cols) :
    (Codec.product A B).cell r c = xorSum A.cols (fun k => A.cell r k && B.cell k c) := by
  have zero : (BitMatrix.zero A.rows B.cols).Good := BitMatrix.zero_good (by omega) (by omega)
  obtain ⟨-, -, -, cells⟩ := BitMatrix.mulInto_spec (A := A) (B := B) zero (Nat.le_refl _) rfl
  rw [Codec.product, cells r c hr hc, BitMatrix.zero_cell, Bool.false_xor]

/-- The product of the row of a byte with a matrix. -/
theorem Codec.cell_product_rowOf {length : Nat} (hl : 1 ≤ length) (byte : Byte) {B : BitMatrix}
    {c : Nat} (hc : c < B.cols) :
    (Codec.product (Codec.rowOf length byte) B).cell 0 c =
      xorSum length (fun k => byte.getLsbD k && B.cell k c) := by
  obtain ⟨-, rows, cols, cells⟩ := Codec.rowOf_spec hl byte
  rw [Codec.cell_product (by omega) hc, cols]
  exact xorSum_congr fun k hk => by rw [cells k hk]

/-- Bit `p` of ENCODE's codeword is column `7 - p` of the product of the nibble with `G`
(42_codec_encoder.md R96). -/
theorem Codec.getLsbD_encode (n : Nibble) {p : Nat} (hp : p < 8) :
    (Codec.encode Constants.rom.G n).getLsbD p =
      xorSum 4 (fun k => n.getLsbD k && gOne k (7 - p)) := by
  have hc : 7 - p < 8 := by omega
  rw [Codec.encode, BitMatrix.getLsbD_toData_column _ hp, Codec.cell_product_rowOf (by decide) _ hc]
  refine xorSum_congr fun k hk => ?_
  have bit : (n.setWidth 8).getLsbD k = n.getLsbD k := by
    rw [BitVec.getLsbD_setWidth, decide_eq_true (by omega : k < 8), Bool.true_and]
  rw [bit, Constants.rom_G_cell k hk _ hc]

/-- A column of the syndrome of a byte (R100). -/
theorem Codec.cell_syndrome (w : Byte) {c : Nat} (hc : c < 4) :
    (Codec.product (Codec.rowOf 8 w) Constants.rom.HT).cell 0 c =
      xorSum 8 (fun k => w.getLsbD k && htOne k c) := by
  rw [Codec.cell_product_rowOf (by decide) w hc]
  exact xorSum_congr fun k hk => by rw [Constants.rom_HT_cell k hk c hc]

end Sys2Proof.Machine
end

section
/-! The decoder (43_decoder.md R102 to R107): what its parts compute, that DECODE is the parts in turn, and
that it gives an encoded nibble back. -/

namespace Sys2Proof.Machine

/-! ### CORRECT -/

/-- BM.FLIP negates its cell and leaves the others (30_encoding.md R63). -/
theorem BitMatrix.cell_flipCell {M : BitMatrix} (h : M.vec.storage.wf) {r c r' c' : Nat}
    (hc : c < M.cols) (hc' : c' < M.cols) :
    (M.flipCell r c).cell r' c' = if r' = r ∧ c' = c then !M.cell r c else M.cell r' c' := by
  unfold BitMatrix.flipCell
  cases hb : M.cell r c
  · exact BitMatrix.cell_setCell h hc hc'
  · exact BitMatrix.cell_clrCell h hc hc'

/-- The codeword of a matrix has column `i` of row 0 at position `i` (R103). -/
theorem BitMatrix.getLsbD_toCodeword (M : BitMatrix) {i : Nat} (hi : i < 8) :
    M.toCodeword.getLsbD i = M.cell 0 i := by
  rw [Bool.eq_iff_iff]
  exact (getLsbD_assembled (M.cell 0) id hi 8).trans
    ⟨fun ⟨_, _, hk, h⟩ => hk ▸ h, fun h => ⟨i, hi, rfl, h⟩⟩

theorem Codec.toCodeword_rowOf (w : Byte) : (Codec.rowOf 8 w).toCodeword = w :=
  BitVec.eq_of_getLsbD_eq fun i hi => by
    rw [BitMatrix.getLsbD_toCodeword _ hi, Codec.cell_rowOf w hi]

theorem getLsbD_xor_bitMask (w : Byte) (p : Nat) {i : Nat} (hi : i < 8) :
    (w ^^^ bitMask p).getLsbD i = if i = p then !w.getLsbD p else w.getLsbD i := by
  rw [BitVec.getLsbD_xor, getLsbD_bitMask hi]
  by_cases h : i = p
  · simp [h]
  · simp [h]

/-- Flipping column `p` of the row of a byte flips bit `p` of the byte. -/
theorem Codec.toCodeword_flipCell_rowOf (w : Byte) {p : Nat} (hp : p < 8) :
    ((Codec.rowOf 8 w).flipCell 0 p).toCodeword = w ^^^ bitMask p := by
  obtain ⟨good, -, cols, -⟩ := Codec.rowOf_spec (by decide : 1 ≤ 8) w
  refine BitVec.eq_of_getLsbD_eq fun i hi => ?_
  rw [BitMatrix.getLsbD_toCodeword _ hi, getLsbD_xor_bitMask w p hi,
    BitMatrix.cell_flipCell good.wf (cols.symm ▸ hp) (cols.symm ▸ hi), Codec.cell_rowOf w hp,
    Codec.cell_rowOf w hi]
  simp

theorem Codec.correct_noerr (w : Byte) : Codec.correct .noerr w = (.ok, w) :=
  congrArg (Prod.mk _) (Codec.toCodeword_rowOf w)

theorem Codec.correct_uncorr (w : Byte) : Codec.correct .uncorr w = (.err, w) :=
  congrArg (Prod.mk _) (Codec.toCodeword_rowOf w)

theorem Codec.correct_pos (p : Fin 8) (w : Byte) :
    Codec.correct (.pos p) w = (.corrected, w ^^^ bitMask p) :=
  congrArg (Prod.mk _) (Codec.toCodeword_flipCell_rowOf w p.isLt)

/-- Settles O38, from the value of `Codec.correct` for each kind of entry. -/
theorem correctResult : Obligations.CorrectResult := by
  unfold Obligations.CorrectResult
  intro s w
  refine ⟨?_, ?_, fun p => ?_⟩
  · simpa only [Codec.correct_noerr] using s.performs_correct .noerr w
  · simpa only [Codec.correct_uncorr] using s.performs_correct .uncorr w
  · simpa only [Codec.correct_pos, bitMask] using s.performs_correct (.pos p) w

/-! ### EXTRACT -/

theorem getLsbD_bitrev8 (x : Byte) {i : Nat} (hi : i < 8) :
    (bitrev8 x).getLsbD i = x.getLsbD (7 - i) := by
  simp [bitrev8, hi]

/-- BM.TODATA reads a row back in the opposite order to BM.FROMDATA (41_bitmatrix.md R90). -/
theorem Codec.toData_rowOf (w : Byte) : (Codec.rowOf 8 w).toData = bitrev8 w := by
  refine BitVec.eq_of_getLsbD_eq fun i hi => ?_
  rw [BitMatrix.getLsbD_toData_column _ hi, Codec.cell_rowOf w (by omega), getLsbD_bitrev8 w hi]

theorem Codec.extract_eq (w : Byte) : Codec.extract w = (bitrev8 w &&& 0x0F).setWidth 4 := by
  rw [Codec.extract, Codec.nibbleOf, Codec.toData_rowOf]

/-- The mask of EXTRACT keeps every bit that a nibble has. -/
theorem getLsbD_lowNibble (x : Byte) {i : Nat} (hi : i < 4) :
    ((x &&& 0x0F).setWidth 4).getLsbD i = x.getLsbD i := by
  have mask : ∀ i < 4, (0x0F : Byte).getLsbD i = true := by decide
  rw [BitVec.getLsbD_setWidth, BitVec.getLsbD_and, mask i hi, Bool.and_true, decide_eq_true hi,
    Bool.true_and]

theorem Codec.getLsbD_extract (w : Byte) {i : Nat} (hi : i < 4) :
    (Codec.extract w).getLsbD i = w.getLsbD (7 - i) := by
  rw [Codec.extract_eq, getLsbD_lowNibble _ hi, getLsbD_bitrev8 w (by omega)]

/-- Settles O39, from the value of `Codec.extract` and its bits. -/
theorem extractResult : Obligations.ExtractResult := by
  unfold Obligations.ExtractResult
  intro s w
  exact ⟨_, s.performs_extract w, Codec.extract_eq w, Codec.getLsbD_extract w (by decide),
    Codec.getLsbD_extract w (by decide), Codec.getLsbD_extract w (by decide),
    Codec.getLsbD_extract w (by decide)⟩

/-! ### DECODE as a composition -/

/-- A row and the row of its codeword read back alike: they agree on the eight columns. -/
theorem Codec.toData_rowOf_toCodeword (R : BitMatrix) :
    (Codec.rowOf 8 R.toCodeword).toData = R.toData := by
  refine BitVec.eq_of_getLsbD_eq fun i hi => ?_
  rw [BitMatrix.getLsbD_toData_column _ hi, BitMatrix.getLsbD_toData_column _ hi,
    Codec.cell_rowOf _ (by omega), BitMatrix.getLsbD_toCodeword R (by omega)]

/-- EXTRACT of a row's codeword is decode step 4 on the row itself (R104). -/
theorem Codec.extract_toCodeword (R : BitMatrix) :
    Codec.extract R.toCodeword = Codec.nibbleOf R := by
  rw [Codec.extract, Codec.nibbleOf, Codec.nibbleOf, Codec.toData_rowOf_toCodeword]

/-- DECODE does on one transient row what its parts do through the bytes they deliver (R105). -/
theorem Codec.decode_eq (HT : BitMatrix) (errTab : Vector Entry 16) (w : Byte) :
    Codec.decode HT errTab w =
      ((Codec.correct (Codec.lookup errTab (Codec.syndrome HT w)) w).1,
        Codec.extract (Codec.correct (Codec.lookup errTab (Codec.syndrome HT w)) w).2) :=
  Prod.ext rfl (Codec.extract_toCodeword _).symm

/-- Settles O40: each part takes what the one before delivers, and `Codec.decode` is that composition. -/
theorem decodeIsTheComposition : Obligations.DecodeIsTheComposition := by
  unfold Obligations.DecodeIsTheComposition
  intro s w
  refine ⟨_, _, _, _, _, s.performs_syndrome w, s.performs_lookup _, s.performs_correct _ w,
    s.performs_extract _, ?_⟩
  simpa only [Codec.decode_eq] using s.performs_decode w

/-! ### LOOKUP -/

theorem Codec.lookup_zero : Codec.lookup Constants.rom.errTab 0 = .noerr := by decide

theorem Codec.lookup_uncorrectable :
    ∀ idx ∈ uncorrectableIndices, Codec.lookup Constants.rom.errTab idx = .uncorr := by decide

theorem Codec.lookup_row :
    ∀ p : Fin 8, Codec.lookup Constants.rom.errTab (rowIndices.getD p 0) = .pos p := by decide

/-- Settles O37: LOOKUP delivers the table's entry, and the table of R16 is known at all sixteen indices. -/
theorem lookupResult : Obligations.LookupResult := by
  unfold Obligations.LookupResult
  intro s hs
  have performs := s.performs_lookup
  rw [hs] at performs
  exact ⟨Codec.lookup_zero ▸ performs 0, fun idx h => Codec.lookup_uncorrectable idx h ▸ performs idx,
    fun p => Codec.lookup_row p ▸ performs _⟩

/-! ### Decoding an encoded nibble -/

/-- Every row of `G`, in the order in which the decoder reads a codeword, is orthogonal to every column of
`HT`. -/
theorem gOne_orthogonal_htOne :
    ∀ i < 4, ∀ c < 4, xorSum 8 (fun k => gOne i (7 - k) && htOne k c) = false := by decide

theorem Codec.cell_syndrome_encode (v : Nibble) {c : Nat} (hc : c < 4) :
    (Codec.product (Codec.rowOf 8 (Codec.encode Constants.rom.G v)) Constants.rom.HT).cell 0 c =
      false := by
  rw [Codec.cell_syndrome _ hc]
  calc xorSum 8 (fun k => (Codec.encode Constants.rom.G v).getLsbD k && htOne k c)
      = xorSum 8 (fun k => xorSum 4 fun i => v.getLsbD i && (gOne i (7 - k) && htOne k c)) :=
        xorSum_congr fun k hk => by
          rw [Codec.getLsbD_encode v hk, Bool.and_comm, ← xorSum_and_left]
          exact xorSum_congr fun i _ => by ac_rfl
    _ = xorSum 4 (fun i => v.getLsbD i && xorSum 8 fun k => gOne i (7 - k) && htOne k c) := by
        rw [xorSum_comm]
        simp only [xorSum_and_left]
    _ = xorSum 4 (fun _ => false) := xorSum_congr fun i hi => by
        rw [gOne_orthogonal_htOne i hi c hc, Bool.and_false]
    _ = false := xorSum_false 4

theorem Codec.syndrome_encode (v : Nibble) :
    Codec.syndrome Constants.rom.HT (Codec.encode Constants.rom.G v) = 0 := by
  simp [Codec.syndrome, BitMatrix.toData4, Codec.cell_syndrome_encode v]

/-- The code is systematic: the left half of `G` is the identity. -/
theorem Codec.extract_encode (v : Nibble) :
    Codec.extract (Codec.encode Constants.rom.G v) = v := by
  refine BitVec.eq_of_getLsbD_eq fun i hi => ?_
  rw [Codec.getLsbD_extract _ hi, Codec.getLsbD_encode v (by omega)]
  interval_cases i <;> simp [xorSum, gOne]

theorem Codec.decode_encode (v : Nibble) :
    Codec.decode Constants.rom.HT Constants.rom.errTab (Codec.encode Constants.rom.G v) =
      (.ok, v) := by
  rw [Codec.decode_eq, Codec.syndrome_encode, Codec.lookup_zero, Codec.correct_noerr,
    Codec.extract_encode]

/-- Settles O42: a codeword has syndrome 0, which the table answers with `NOERR`, and its high nibble is the
nibble encoded. -/
theorem decodeOfEncodeRoundTrip : Obligations.DecodeOfEncodeRoundTrip := by
  unfold Obligations.DecodeOfEncodeRoundTrip
  intro s v hs
  refine ⟨_, _, exec_encode v s, rfl, ?_⟩
  have performs := (s.deliver (.codeword (Codec.encode s.consts.G v))).performs_decode
    (Codec.encode s.consts.G v)
  simpa only [State.deliver_consts, hs, Codec.decode_encode] using performs

end Sys2Proof.Machine
end

section
/-! What an operation delivers changes nothing for the next one (60_exceptions.md R128; 10_state.md R26):
states that differ only in what was delivered are alike for every shared operation, and so for every
operation. -/

namespace Sys2Proof.Machine

/-! ### Shared operations -/

section
variable {s t : State} (h : OnlyDelivers s t)
include h

/-- Delivering overwrites all that such states differ in. -/
theorem OnlyDelivers.deliver_eq (r : Result) : t.deliver r = s.deliver r := by
  obtain ⟨consts, vectors, matrices, pending, config, draws⟩ := h
  simp only [State.deliver, consts, vectors, matrices, pending, config, draws]

theorem OnlyDelivers.next_deliver_eq (r : Result) :
    (.next (t.deliver r) : Out) = .next (s.deliver r) := by
  rw [h.deliver_eq]

theorem OnlyDelivers.addVector (V : BitVector) : OnlyDelivers (s.addVector V) (t.addVector V) :=
  { h with vectors := congrArg (· ++ [V]) h.vectors }

theorem OnlyDelivers.addMatrix (M : BitMatrix) : OnlyDelivers (s.addMatrix M) (t.addMatrix M) :=
  { h with matrices := congrArg (· ++ [M]) h.matrices }

theorem OnlyDelivers.putVector (v : Nat) (V : BitVector) :
    OnlyDelivers (s.putVector v V) (t.putVector v V) :=
  { h with vectors := congrArg (·.set v V) h.vectors }

theorem OnlyDelivers.putMatrix (n : Nat) (M : BitMatrix) :
    OnlyDelivers (s.putMatrix n M) (t.putMatrix n M) :=
  { h with matrices := congrArg (·.set n M) h.matrices }

theorem OnlyDelivers.withConsts (C : Constants) :
    OnlyDelivers { s with consts := C } { t with consts := C } :=
  { h with consts := rfl }

theorem OnlyDelivers.allocFails_eq : t.allocFails = s.allocFails := by
  rw [State.allocFails, State.allocFails, h.config, h.draws]

theorem OnlyDelivers.drawn : OnlyDelivers s.drawn t.drawn := by
  unfold State.drawn
  rw [h.config]
  split
  · exact { h with config := rfl, draws := congrArg (· + 1) h.draws }
  · exact h

theorem OnlyDelivers.installVector_eq (V? : Option BitVector) :
    t.installVector V? = s.installVector V? := by
  cases V? with
  | none => exact h.deliver_eq _
  | some V =>
    simp only [State.installVector, h.allocFails_eq, h.vectors, h.drawn.deliver_eq,
      (h.drawn.addVector V).deliver_eq]

theorem OnlyDelivers.installMatrix_eq (M? : Option BitMatrix) :
    t.installMatrix M? = s.installMatrix M? := by
  cases M? with
  | none => exact h.deliver_eq _
  | some M =>
    simp only [State.installMatrix, h.allocFails_eq, h.matrices, h.drawn.deliver_eq,
      (h.drawn.addMatrix M).deliver_eq]

theorem OnlyDelivers.undefinedBehaviour_eq (p : Precondition) :
    t.undefinedBehaviour p = s.undefinedBehaviour p := by
  rw [State.undefinedBehaviour, State.undefinedBehaviour, h.config]

theorem OnlyDelivers.matrix?_eq (m : MatRef) : t.matrix? m = s.matrix? m := by
  cases m <;> simp only [State.matrix?, h.consts, h.matrices]

/-- An operand denotes the same thing in both, so an access ends alike when what follows it does. -/
theorem OnlyDelivers.onBit_eq {v i : Nat} {k k' : BitVector → Out} (hk : ∀ V, k' V = k V) :
    t.onBit v i k' = s.onBit v i k := by
  simp only [State.onBit, State.vector?, h.vectors, h.undefinedBehaviour_eq, hk]

theorem OnlyDelivers.onMatrix_eq {m : MatRef} {k k' : BitMatrix → Out} (hk : ∀ M, k' M = k M) :
    t.onMatrix m k' = s.onMatrix m k := by
  simp only [State.onMatrix, h.matrix?_eq, hk]

theorem OnlyDelivers.onWritableCell_eq {m : MatRef} {r c : Nat} {k k' : Nat → BitMatrix → Out}
    (hk : ∀ n M, k' n M = k n M) : t.onWritableCell m r c k' = s.onWritableCell m r c k := by
  simp only [State.onWritableCell, h.matrices, h.undefinedBehaviour_eq, hk]

/-! ### Every operation -/

/-- No operation reads `result` or the ports (10_state.md R26, decision D15). -/
theorem OnlyDelivers.exec_eq (i : Instr) : exec i t = exec i s := by
  cases i with
  | bvCreate length => exact congrArg Host.Outcome.next (h.installVector_eq _)
  | bvSet v k => exact h.onBit_eq fun V => (h.putVector v _).next_deliver_eq _
  | bvClr v k => exact h.onBit_eq fun V => (h.putVector v _).next_deliver_eq _
  | bvXor v k value => exact h.onBit_eq fun V => (h.putVector v _).next_deliver_eq _
  | bvGet v k => exact h.onBit_eq fun V => h.next_deliver_eq _
  | bmCreate rows cols => exact congrArg Host.Outcome.next (h.installMatrix_eq _)
  | bmSet m r c => exact h.onWritableCell_eq fun n M => (h.putMatrix n _).next_deliver_eq _
  | bmClr m r c => exact h.onWritableCell_eq fun n M => (h.putMatrix n _).next_deliver_eq _
  | bmGet m r c =>
    exact h.onMatrix_eq fun M => by rw [h.deliver_eq, h.undefinedBehaviour_eq]
  | bmFromData length byte =>
    simp only [exec, execBmFromData, h.allocFails_eq, h.installMatrix_eq, h.undefinedBehaviour_eq]
  | bmToData m =>
    exact h.onMatrix_eq fun M => by rw [h.deliver_eq, h.undefinedBehaviour_eq]
  | bmMul a b =>
    exact h.onMatrix_eq fun A => h.onMatrix_eq fun B => by
      rw [h.allocFails_eq, h.installMatrix_eq, h.undefinedBehaviour_eq]
  | encode n => rw [exec_encode, exec_encode, h.consts, h.deliver_eq]
  | decode w => simp only [exec, execDecode, h.consts, h.deliver_eq]
  | syndrome w => simp only [exec, execSyndrome, h.consts, h.deliver_eq]
  | lookup idx => simp only [exec, execLookup, h.consts, h.deliver_eq]
  | correct e w => exact h.next_deliver_eq _
  | extract w => exact h.next_deliver_eq _
  | hamInit => exact (h.withConsts Constants.build).next_deliver_eq _

end

/-- Settles O46: DECODE only delivers, whatever its status, and no operation reads what was delivered. -/
theorem errStatusIsAResult : Obligations.ErrStatusIsAResult := by
  unfold Obligations.ErrStatusIsAResult
  intro s w
  obtain ⟨t, exec_eq, only, result, -, -⟩ := s.performs_decode w
  exact ⟨t, _, _, exec_eq, result, only.pending, only.exec_eq⟩

end Sys2Proof.Machine
end

section
/-! What a creation installs is all zero (70_reset_and_hazards.md R142): the handle delivered is that of
the instance the parameter test let through, and that instance is the zero vector or matrix. -/

namespace Sys2Proof.Machine

/-- What BV.CREATE's test lets through is the zero vector (40_bitvector.md R71). -/
theorem BitVector.create_some {length : Nat} {V : BitVector}
    (h : BitVector.create length = some V) : V = BitVector.zero length := by
  rcases Nat.lt_or_ge length 1 with hl | hl
  · rw [BitVector.create_of_lt hl] at h
    cases h
  · rw [BitVector.create_of_le hl] at h
    exact (Option.some.inj h).symm

/-- Every storage unit of the zero vector is `00`, the one with the pad bits included. -/
theorem BitVector.units_zero (n : Nat) :
    (BitVector.zero n).units = List.replicate ((n + 7) / 8) 0x00 :=
  calc (List.range (BitVector.zero n).unitCount).map (BitVector.zero n).memRead
    _ = (List.range ((n + 7) / 8)).map (fun _ => 0x00) :=
      List.map_congr_left fun u _ => BitVector.zero_memRead n u
    _ = List.replicate ((n + 7) / 8) 0x00 := by rw [List.map_const', List.length_range]

/-- A vector handle is delivered only for the instance that the parameter test let through. -/
theorem State.installVector_delivered {s : State} {V? : Option BitVector} {v : Nat}
    (h : (s.installVector V?).result = .vector v) :
    ∃ V, V? = some V ∧ (s.installVector V?).vectors[v]? = some V := by
  rcases State.installVector_cases s V? with absent | ⟨V, hV, adds⟩
  · cases absent.result.symm.trans h
  · obtain rfl := Result.vector.inj (adds.result.symm.trans h)
    exact ⟨V, hV, adds.vectors ▸ List.getElem?_concat_length⟩

/-- A matrix handle is delivered only for the instance that the parameter test let through. -/
theorem State.installMatrix_delivered {s : State} {M? : Option BitMatrix} {h : Nat}
    (hr : (s.installMatrix M?).result = .matrix h) :
    ∃ M, M? = some M ∧ (s.installMatrix M?).matrices[h]? = some M := by
  rcases State.installMatrix_cases s M? with absent | ⟨M, hM, adds⟩
  · cases absent.result.symm.trans hr
  · obtain rfl := Result.matrix.inj (adds.result.symm.trans hr)
    exact ⟨M, hM, adds.matrices ▸ List.getElem?_concat_length⟩

/-- Settles O14: the instance delivered is the zero vector or matrix, whose units are all `00`. -/
theorem createdInstancesAreZero : Obligations.CreatedInstancesAreZero := by
  unfold Obligations.CreatedInstancesAreZero
  constructor
  · intro length s t v next result
    obtain rfl := Host.Outcome.next.inj ((exec_bvCreate length s).symm.trans next)
    obtain ⟨V, created, held⟩ := State.installVector_delivered result
    obtain rfl := BitVector.create_some created
    exact ⟨_, held, rfl, BitVector.units_zero length⟩
  · intro rows cols s t h next result
    obtain rfl := Host.Outcome.next.inj ((exec_bmCreate rows cols s).symm.trans next)
    obtain ⟨M, created, held⟩ := State.installMatrix_delivered result
    obtain ⟨rfl, -⟩ := BitMatrix.create_some created
    exact ⟨_, held, rfl, rfl, rfl, BitVector.units_zero (rows * cols)⟩

end Sys2Proof.Machine
end

section
/-! The decoder and the encoder (30_encoding.md R50 to R61): which row a selector names, what a row makes of
its operands, and that nothing is lost between an operation and its word. -/

namespace Sys2Proof

/-! ### Selectors -/

/-- A selector names a row exactly when that row of R51 has it. -/
theorem Op.ofSel_eq_some_iff {sel : Byte} {op : Op} : Op.ofSel sel = some op ↔ op.sel = sel := by
  constructor
  · intro h
    simpa using List.find?_some h
  · rintro rfl
    exact Laws.ofSel_sel op

/-- The reserved selectors are those that no row of R51 has (R59). -/
theorem Op.ofSel_eq_none_iff (sel : Byte) : Op.ofSel sel = none ↔ Machine.reservedSel sel := by
  simp only [Op.ofSel, Op.all, List.find?_eq_none, List.cons_append, List.nil_append, List.forall_mem_cons,
    beq_iff_eq, List.not_mem_nil, false_imp_iff, implies_true, and_true, Op.sel]
  bv_omega

/-! ### Entry codes -/

/-- Every entry's code reads back as that entry (R56). -/
theorem Entry.ofCode_code (e : Entry) : Entry.ofCode e.code = some e := by
  have positions : ∀ p : Fin 8, Entry.ofCode (Entry.pos p).code = some (.pos p) := by decide
  cases e with
  | noerr => rfl
  | uncorr => rfl
  | pos p => exact positions p

/-- A code that reads as an entry is that entry's code (R56). -/
theorem Entry.code_of_ofCode {code : BitVec 5} {e : Entry} (h : Entry.ofCode code = some e) :
    e.code = code := by
  have all : ∀ code : BitVec 5, (Entry.ofCode code).all (·.code = code) := by decide
  simpa [h] using all code

/-! ### Rows and words -/

theorem decodeWord_of_sel {w : OpWord} {op : Op} (h : op.sel = w.sel) (x : TypedOperands) :
    decodeWord w x = decodeOp op w.imm x := by
  rw [decodeWord, Op.ofSel_eq_some_iff.2 h]

theorem decodeWord_of_reserved {w : OpWord} (h : Machine.reservedSel w.sel) (x : TypedOperands) :
    decodeWord w x = .reject (.reservedSelector w.sel) := by
  rw [decodeWord, (Op.ofSel_eq_none_iff _).2 h]

/-- A made word is decoded by its selector's row with its byte. -/
theorem decodeWord_make (op : Op) (imm : Byte) (x : TypedOperands) :
    decodeWord (OpWord.make op.sel imm) x = decodeOp op imm x := by
  rw [decodeWord_of_sel (Laws.sel_make op.sel imm).symm, Laws.imm_make]

theorem decodeOp_correct {x : TypedOperands} {e : Entry} (h : Entry.ofCode x.e = some e) (imm : Byte) :
    decodeOp .correct imm x = .op (.correct e imm) := by
  simp only [decodeOp, h]

theorem decodeOp_correct_reserved {x : TypedOperands} (h : Entry.ofCode x.e = none) (imm : Byte) :
    decodeOp .correct imm x = .reject (.reservedEntryCode x.e) := by
  simp only [decodeOp, h]

/-- A row decodes to an operation of that row only. -/
theorem op_of_decodeOp {op : Op} {imm : Byte} {x : TypedOperands} {i : Instr}
    (h : decodeOp op imm x = .op i) : i.op = op := by
  cases op with
  | correct =>
    cases he : Entry.ofCode x.e with
    | none => cases (decodeOp_correct_reserved he imm).symm.trans h
    | some e => cases (decodeOp_correct he imm).symm.trans h; rfl
  | _ => cases h; rfl

/-- A word decodes to an operation of its selector's row only. -/
theorem ofSel_of_decodeWord {w : OpWord} {x : TypedOperands} {i : Instr}
    (h : decodeWord w x = .op i) : Op.ofSel w.sel = some i.op := by
  cases hop : Op.ofSel w.sel with
  | none => rw [decodeWord, hop] at h; cases h
  | some op =>
    rw [decodeWord, hop] at h
    rw [op_of_decodeOp h]

/-! ### Decoding an encoded operation -/

/-- The low nibble of a zero-extended nibble is that nibble (R53). -/
theorem immNibble_setWidth (n : Nibble) : immNibble (n.setWidth 8) = n := by
  refine BitVec.eq_of_getLsbD_eq fun k hk => ?_
  have : k < 8 := by omega
  simp [immNibble, hk, this]

/-- Settles O8: the word's selector names the operation's row, and the row takes each operand from where the
encoder put it; the two nibble operands and CORRECT's entry are read back from their codes. -/
theorem decodeOfEncodeIsTheOperation : Obligations.DecodeOfEncodeIsTheOperation := by
  unfold Obligations.DecodeOfEncodeIsTheOperation
  intro i
  rw [encode, decodeWord_make]
  cases i with
  | encode n => exact congrArg (Decoded.op ∘ Instr.encode) (immNibble_setWidth n)
  | lookup idx => exact congrArg (Decoded.op ∘ Instr.lookup) (immNibble_setWidth idx)
  | correct e w => exact decodeOp_correct (Entry.ofCode_code e) w
  | _ => rfl

/-! ### Bits of `imm` that are not used -/

/-- The rows of R51 whose operands include the byte, or a part of it. -/
def Op.takesByte : Op → Bool
  | .bmFromData | .encode | .decode | .syndrome | .lookup | .correct | .extract => true
  | _ => false

theorem decodeOp_of_not_takesByte {op : Op} (h : op.takesByte = false) (imm imm' : Byte)
    (x : TypedOperands) : decodeOp op imm x = decodeOp op imm' x := by
  cases op with
  | bmFromData | encode | decode | syndrome | lookup | correct | extract => cases h
  | _ => rfl

theorem immNibble_congr {imm imm' : Byte} (h : ∀ k < 4, imm.getLsbD k = imm'.getLsbD k) :
    immNibble imm = immNibble imm' :=
  BitVec.eq_of_getLsbD_eq fun k hk => by simp [immNibble, h k hk]

/-- Settles O11: the listed selectors are those of the rows that take no byte, and ENCODE and LOOKUP read the
low nibble only. -/
theorem unusedImmBitsAreIgnored : Obligations.UnusedImmBitsAreIgnored := by
  unfold Obligations.UnusedImmBitsAreIgnored
  constructor
  · intro sel imm imm' x h
    have listed : ([0x00, 0x01, 0x02, 0x03, 0x04, 0x10, 0x11, 0x12, 0x13, 0x15, 0x16, 0x2F] : List Byte) =
        (Op.all.filter (!·.takesByte)).map Op.sel := rfl
    rw [listed] at h
    obtain ⟨op, hop, rfl⟩ := List.mem_map.1 h
    have noByte : op.takesByte = false := by simpa using (List.mem_filter.1 hop).2
    rw [decodeWord_make, decodeWord_make, decodeOp_of_not_takesByte noByte imm imm' x]
  · intro sel imm imm' x h bits
    have nibbles := immNibble_congr bits
    rcases h with rfl | rfl
    · exact (decodeWord_make .encode imm x).trans
        ((congrArg (Decoded.op ∘ Instr.encode) nibbles).trans (decodeWord_make .encode imm' x).symm)
    · exact (decodeWord_make .lookup imm x).trans
        ((congrArg (Decoded.op ∘ Instr.lookup) nibbles).trans (decodeWord_make .lookup imm' x).symm)

/-- Settles O12: the decoder reads each of the six words by its selector's row. -/
theorem writtenOutWordsDecode : Obligations.WrittenOutWordsDecode := by
  unfold Obligations.WrittenOutWordsDecode
  decide

end Sys2Proof
end

section
/-! One step from what is presented (10_state.md R11): the operation decoded is performed, a request that
decodes to none is refused. -/

namespace Sys2Proof.Machine

/-- Settles O5: a step fetches the first request and performs what it decodes to. -/
theorem stepPerformsTheDecodedOperation : Obligations.StepPerformsTheDecodedOperation := by
  unfold Obligations.StepPerformsTheDecodedOperation
  intro s q rest i hp hq
  have fetched : s.fetch = some (q, { s with pending := rest }) := by rw [State.fetch, hp]
  rw [step, fetched]
  simp only [hq]

/-- Settles O6: with nothing presented there is nothing to fetch. -/
theorem nothingPresentedNothingHappens : Obligations.NothingPresentedNothingHappens := by
  unfold Obligations.NothingPresentedNothingHappens
  intro s hp
  rw [step, State.fetch, hp]

theorem step_present {s : State} {q : Request} {i : Instr} (h : q.decode = .op i) :
    step (s.present q) = exec i s := by
  rw [step, State.fetch_present]
  simp only [h]

theorem step_present_rejected {s : State} {q : Request} {why : Reject} (h : q.decode = .reject why) :
    step (s.present q) = .refused (.rejected why) := by
  rw [step, State.fetch_present]
  simp only [h]

/-- Settles O7: the placed word is the request decoded next, and its selector's row is the operation's. -/
theorem placedTableWordIsPerformed : Obligations.PlacedTableWordIsPerformed := by
  unfold Obligations.PlacedTableWordIsPerformed
  intro s w i h
  have decoded : decodeWord (BitVec.ofNat 16 w) TypedOperands.zero = .op i := by
    unfold decodeTableWord at h
    split at h
    · cases hd : decodeWord (BitVec.ofNat 16 w) TypedOperands.zero with
      | op j => rw [hd] at h; rw [Option.some.inj h]
      | reject why => rw [hd] at h; cases h
    · cases h
  rw [State.withFetchWord, State.presentTableWord, ofSel_of_decodeWord decoded]
  exact step_present decoded

/-! ### The ports -/

theorem decodePort_encode (din : Byte) :
    (Request.port 0x20 din).decode = .op (.encode (immNibble din)) :=
  decodeWord_make .encode din .zero

theorem decodePort_decode (din : Byte) : (Request.port 0x21 din).decode = .op (.decode din) :=
  decodeWord_make .decode din .zero

theorem decodePort_other {sel : Byte} (hE : sel ≠ 0x20) (hD : sel ≠ 0x21) (din : Byte) :
    (Request.port sel din).decode = .reject (.notAPortOperation sel) :=
  if_neg (not_or.2 ⟨hE, hD⟩)

/-- Settles O9: the reserved selectors are those of no row, so decoder and step turn them away; every other
selector has a row; the ports reach two. -/
theorem reservedSelectorsAreRefused : Obligations.ReservedSelectorsAreRefused := by
  unfold Obligations.ReservedSelectorsAreRefused
  refine ⟨fun w x h => decodeWord_of_reserved h x, fun w x h => ?_, fun s w x h => ?_,
    fun s sel din hE hD => step_present_rejected (decodePort_other hE hD din)⟩
  · obtain ⟨op, hop⟩ := Option.ne_none_iff_exists'.1 fun none => h ((Op.ofSel_eq_none_iff _).1 none)
    have hsel := Op.ofSel_eq_some_iff.1 hop
    exact ⟨op, hsel, decodeWord_of_sel hsel x⟩
  · exact step_present_rejected (decodeWord_of_reserved h x)

end Sys2Proof.Machine
end

section
/-! What every completed operation leaves alone, read off its `Effect`: the constants, the other instances,
the parameters and what is presented (10_state.md R17, R23; 70_reset_and_hazards.md R140, R149). -/

namespace Sys2Proof.Machine

/-! ### Creations field by field -/

section
variable (s : State) (V? : Option BitVector) (M? : Option BitMatrix)

@[simp] theorem State.installVector_consts : (s.installVector V?).consts = s.consts :=
  (State.installVector_cases s V?).elim (·.consts) fun ⟨_, _, adds⟩ => adds.consts
@[simp] theorem State.installVector_matrices : (s.installVector V?).matrices = s.matrices :=
  (State.installVector_cases s V?).elim (·.matrices) fun ⟨_, _, adds⟩ => adds.matrices
@[simp] theorem State.installVector_pending : (s.installVector V?).pending = s.pending :=
  (State.installVector_cases s V?).elim (·.pending) fun ⟨_, _, adds⟩ => adds.pending
@[simp] theorem State.installVector_config : (s.installVector V?).config = s.config :=
  (State.installVector_cases s V?).elim (·.config) fun ⟨_, _, adds⟩ => adds.config
@[simp] theorem State.installVector_dout : (s.installVector V?).dout = none :=
  (State.installVector_ports s V?).1
@[simp] theorem State.installVector_status : (s.installVector V?).status = none :=
  (State.installVector_ports s V?).2

@[simp] theorem State.installMatrix_consts : (s.installMatrix M?).consts = s.consts :=
  (State.installMatrix_cases s M?).elim (·.consts) fun ⟨_, _, adds⟩ => adds.consts
@[simp] theorem State.installMatrix_vectors : (s.installMatrix M?).vectors = s.vectors :=
  (State.installMatrix_cases s M?).elim (·.vectors) fun ⟨_, _, adds⟩ => adds.vectors
@[simp] theorem State.installMatrix_pending : (s.installMatrix M?).pending = s.pending :=
  (State.installMatrix_cases s M?).elim (·.pending) fun ⟨_, _, adds⟩ => adds.pending
@[simp] theorem State.installMatrix_config : (s.installMatrix M?).config = s.config :=
  (State.installMatrix_cases s M?).elim (·.config) fun ⟨_, _, adds⟩ => adds.config
@[simp] theorem State.installMatrix_dout : (s.installMatrix M?).dout = none :=
  (State.installMatrix_ports s M?).1
@[simp] theorem State.installMatrix_status : (s.installMatrix M?).status = none :=
  (State.installMatrix_ports s M?).2

/-- A creation adds at most one vector, after the others. -/
theorem State.installVector_vectors :
    ∃ new, (s.installVector V?).vectors = s.vectors ++ new ∧ new.length ≤ 1 := by
  rcases State.installVector_cases s V? with absent | ⟨V, -, adds⟩
  · exact ⟨[], by rw [absent.vectors, List.append_nil], by simp⟩
  · exact ⟨[V], adds.vectors, by simp⟩

theorem State.installMatrix_matrices :
    ∃ new, (s.installMatrix M?).matrices = s.matrices ++ new ∧ new.length ≤ 1 := by
  rcases State.installMatrix_cases s M? with absent | ⟨M, -, adds⟩
  · exact ⟨[], by rw [absent.matrices, List.append_nil], by simp⟩
  · exact ⟨[M], adds.matrices, by simp⟩

end

/-! ### The constants -/

/-- HAM.INIT writes the values that are there, and nothing else writes the constants. -/
theorem Effect.consts_eq {i : Instr} {s t : State} (e : Effect i s t) (h : s.consts = Constants.rom) :
    t.consts = s.consts := by
  cases e with
  | delivers _ => rfl
  | createsVector _ => exact s.installVector_consts _
  | createsMatrix _ => exact s.installMatrix_consts _
  | writesVector _ _ _ => rfl
  | writesMatrix _ _ _ => rfl
  | rebuilds _ => exact Constants.build_eq_rom.trans h.symm

theorem Constants.rom_errTab_toList : Constants.rom.errTab.toList =
    [.noerr, .pos 7, .pos 6, .uncorr, .pos 5, .uncorr, .uncorr, .pos 0,
     .pos 4, .uncorr, .uncorr, .pos 1, .uncorr, .pos 2, .pos 3, .uncorr] := rfl

/-- Settles O1: the step's operation, if there is one, keeps the constants. -/
theorem constantsHoldFromReset : Obligations.ConstantsHoldFromReset := by
  unfold Obligations.ConstantsHoldFromReset
  refine ⟨Constants.rom_G_units, Constants.rom_HT_units, Constants.rom_errTab_toList, fun s t hs h => ?_⟩
  rcases step_next_cases h with ⟨-, rfl⟩ | ⟨q, rest, i, -, -, h⟩
  · exact hs
  · exact ((exec_effect h).consts_eq hs).trans hs

/-- Settles O32: every way of completing keeps the constants, and the writes look at their operand first. -/
theorem constantsAreImmutable : Obligations.ConstantsAreImmutable := by
  unfold Obligations.ConstantsAreImmutable
  exact ⟨fun i s t hs h => (exec_effect h).consts_eq hs, fun s r c => ⟨rfl, rfl, rfl, rfl⟩⟩

/-! ### Status and entry codes -/

theorem Status.code_ne_reserved (st : Status) : some st.code ≠ some 0b11 := by
  cases st <;> decide

theorem Result.statusPort_ne_reserved (r : Result) : r.statusPort ≠ some 0b11 := by
  cases r with
  | codeword w => exact Status.ok.code_ne_reserved
  | decoded st n => exact st.code_ne_reserved
  | _ => exact nofun

theorem State.deliver_status_ne_reserved (s : State) (r : Result) :
    (s.deliver r).status ≠ some 0b11 := r.statusPort_ne_reserved

/-- `status` shows what a result puts there, or nothing (10_state.md R26; log entry 4). -/
theorem Effect.status_ne_reserved {i : Instr} {s t : State} (e : Effect i s t) :
    t.status ≠ some 0b11 := by
  cases e with
  | createsVector _ => simp
  | createsMatrix _ => simp
  | _ => exact State.deliver_status_ne_reserved _ _

/-- Settles O10: no result puts `11` on `status`; the never-stored codes read as no entry, and every entry's
code reads as that entry. -/
theorem reservedDataCodesNeverProduced : Obligations.ReservedDataCodesNeverProduced := by
  unfold Obligations.ReservedDataCodesNeverProduced
  refine ⟨fun i s t h => ⟨?_, fun e _ listed => ?_⟩, Entry.ofCode_code, fun s w x hsel h => ?_⟩
  · exact (exec_effect h).status_ne_reserved
  · have none : Entry.ofCode e.code = none := by
      generalize e.code = code at listed
      revert code
      decide
    cases (Entry.ofCode_code e).symm.trans none
  · have none : Entry.ofCode x.e = none :=
      Option.eq_none_iff_forall_ne_some.2 fun e he => h e (Entry.code_of_ofCode he)
    have decoded : decodeWord w x = decodeOp .correct w.imm x := decodeWord_of_sel (op := .correct) hsel.symm x
    exact step_present_rejected (decoded.trans (decodeOp_correct_reserved none w.imm))

/-! ### The other instances -/

/-- Every way of completing writes at most the instance the operation names, or adds one. -/
theorem Effect.instances {i : Instr} {s t : State} (e : Effect i s t) :
    (∀ v < s.vectors.length, writtenVector i ≠ some v → t.vectors[v]? = s.vectors[v]?) ∧
    (∀ h < s.matrices.length, writtenMatrix i ≠ some h → t.matrices[h]? = s.matrices[h]?) ∧
    s.vectors.length ≤ t.vectors.length ∧ s.matrices.length ≤ t.matrices.length ∧
    t.vectors.length + t.matrices.length ≤ s.vectors.length + s.matrices.length + 1 := by
  cases e with
  | delivers _ => simp
  | createsVector _ =>
    obtain ⟨new, vectors, atMostOne⟩ := s.installVector_vectors ‹_›
    rw [vectors, State.installVector_matrices]
    refine ⟨fun v hv _ => List.getElem?_append_left hv, fun _ _ _ => rfl, ?_⟩
    simp only [List.length_append]
    omega
  | createsMatrix _ =>
    obtain ⟨new, matrices, atMostOne⟩ := s.installMatrix_matrices ‹_›
    rw [matrices, State.installMatrix_vectors]
    refine ⟨fun _ _ _ => rfl, fun h hh _ => List.getElem?_append_left hh, ?_⟩
    simp only [List.length_append]
    omega
  | writesVector written _ _ =>
    refine ⟨fun v _ other => ?_, fun _ _ _ => rfl, ?_⟩
    · exact List.getElem?_set_ne fun same => other (written.trans (congrArg some same))
    · simp [State.wroteVector]
  | writesMatrix written _ _ =>
    refine ⟨fun _ _ _ => rfl, fun h _ other => ?_, ?_⟩
    · exact List.getElem?_set_ne fun same => other (written.trans (congrArg some same))
    · simp [State.wroteMatrix]
  | rebuilds _ => simp

theorem Effect.config_pending {i : Instr} {s t : State} (e : Effect i s t) :
    t.config = s.config ∧ t.pending = s.pending := by
  cases e with
  | createsVector _ => exact ⟨s.installVector_config _, s.installVector_pending _⟩
  | createsMatrix _ => exact ⟨s.installMatrix_config _, s.installMatrix_pending _⟩
  | _ => exact ⟨rfl, rfl⟩

/-- Settles O56, from the six ways in which an operation can complete. -/
theorem otherInstancesAreUntouched : Obligations.OtherInstancesAreUntouched := by
  unfold Obligations.OtherInstancesAreUntouched
  intro i s t h
  obtain ⟨vectors, matrices, keptV, keptM, atMostOne⟩ := (exec_effect h).instances
  exact ⟨vectors, matrices, keptV, keptM, atMostOne, (exec_effect h).config_pending⟩

/-! ### What was delivered before -/

/-- Settles O47: the two states differ only in what was delivered, and no operation reads that. -/
theorem outcomeIgnoresEarlierOutputs : Obligations.OutcomeIgnoresEarlierOutputs := by
  unfold Obligations.OutcomeIgnoresEarlierOutputs
  intro i s r d p
  have only : OnlyDelivers s { s with result := r, dout := d, status := p } :=
    ⟨rfl, rfl, rfl, rfl, rfl, rfl⟩
  exact only.exec_eq i

/-- Where only what was delivered has changed, performing the operation again ends in the same state. -/
theorem OnlyDelivers.repeats {i : Instr} {s t : State} (only : OnlyDelivers s t)
    (h : exec i s = .next t) : ∃ u, exec i t = .next u ∧ u = t :=
  ⟨t, (only.exec_eq i).trans h, rfl⟩

theorem State.onlyDelivers_deliver (s : State) (r : Result) : OnlyDelivers s (s.deliver r) :=
  ⟨rfl, rfl, rfl, rfl, rfl, rfl⟩

/-- A read that completes only delivers (20_memory.md R38). -/
theorem onlyDelivers_of_read {i : Instr} {s t : State}
    (read : i.op ∈ ([.bvGet, .bmGet, .bmToData, .lookup] : List Op)) (h : exec i s = .next t) :
    OnlyDelivers s t := by
  cases i with
  | bvGet v k =>
    obtain ⟨V, -, -, ⟨⟩⟩ := State.onBit_next h
    exact s.onlyDelivers_deliver _
  | bmGet m r c =>
    obtain ⟨M, -, h⟩ := State.onMatrix_next h
    split at h
    · cases h; exact s.onlyDelivers_deliver _
    · exact absurd h (State.undefinedBehaviour_ne_next _ _ _)
  | bmToData m =>
    obtain ⟨M, -, h⟩ := State.onMatrix_next h
    split at h
    · cases h; exact s.onlyDelivers_deliver _
    · exact absurd h (State.undefinedBehaviour_ne_next _ _ _)
  | lookup idx => cases h; exact s.onlyDelivers_deliver _
  | _ => simp [Instr.op] at read

/-- Settles O57: a read only delivers, and no operation reads what was delivered. -/
theorem readsHaveNoSideEffect : Obligations.ReadsHaveNoSideEffect := by
  unfold Obligations.ReadsHaveNoSideEffect
  intro i s t read h
  have only := onlyDelivers_of_read read h
  exact ⟨only, only.repeats h⟩

end Sys2Proof.Machine
end

section
/-! How an operation ends (60_exceptions.md R125, R129, R132): it completes exactly within its
preconditions, and otherwise stops with the reason that the access or the check gives. -/

namespace Sys2Proof.Machine

/-! ### When the shared operations complete -/

theorem State.matrix?_inst (s : State) (h : Nat) : s.matrix? (.inst h) = s.matrices[h]? := rfl

theorem State.onBit_completes {s : State} {v i : Nat} {f : BitVector → State} :
    (∃ t, s.onBit v i (fun V => .next (f V)) = .next t) ↔ s.hasBit v i := by
  constructor
  · rintro ⟨t, h⟩
    obtain ⟨V, hV, hi, -⟩ := State.onBit_next h
    exact ⟨V, hV, hi⟩
  · rintro ⟨V, hV, hi⟩
    exact ⟨_, State.onBit_of hV hi⟩

theorem State.onMatrix_completes {s : State} {m : MatRef} {k : BitMatrix → Out} :
    (∃ t, s.onMatrix m k = .next t) ↔ ∃ M, s.matrix? m = some M ∧ ∃ t, k M = .next t := by
  constructor
  · rintro ⟨t, h⟩
    obtain ⟨M, hM, hk⟩ := State.onMatrix_next h
    exact ⟨M, hM, t, hk⟩
  · rintro ⟨M, hM, t, hk⟩
    exact ⟨t, (State.onMatrix_of hM).trans hk⟩

theorem State.onWritableCell_completes {s : State} {m : MatRef} {r c : Nat}
    {f : Nat → BitMatrix → State} :
    (∃ t, s.onWritableCell m r c (fun h M => .next (f h M)) = .next t) ↔
      m.writable = true ∧ s.hasCell m r c := by
  constructor
  · rintro ⟨t, h⟩
    obtain ⟨n, M, rfl, hM, hr, -⟩ := State.onWritableCell_next h
    exact ⟨rfl, M, hM, hr⟩
  · rintro ⟨writable, M, hM, hr⟩
    cases m with
    | g | ht => cases writable
    | inst h => exact ⟨_, State.onWritableCell_of hM hr⟩

/-- A checked operation completes exactly when its check succeeds. -/
theorem State.checked_completes {s u : State} {p : Prop} [Decidable p] {q : Precondition} :
    (∃ t, (if p then .next u else s.undefinedBehaviour q) = .next t) ↔ p := by
  constructor
  · rintro ⟨t, h⟩
    by_contra hp
    rw [if_neg hp] at h
    exact State.undefinedBehaviour_ne_next _ _ _ h
  · exact fun hp => ⟨u, if_pos hp⟩

theorem completes_next (u : State) : (∃ t, (.next u : Out) = .next t) ↔ True :=
  iff_true_intro ⟨u, rfl⟩

/-- Settles O51: an access completes exactly when its operand is there and in range, a check exactly when it
succeeds, and with no allocation failure nothing else lets an operation through. -/
theorem completesExactlyWithinPreconditions : Obligations.CompletesExactlyWithinPreconditions := by
  unfold Obligations.CompletesExactlyWithinPreconditions
  intro i s config
  have allocates : ∀ p : Prop, (p ∨ s.allocFails = true) ↔ p := by
    simp [State.allocFails_of_false config]
  cases i with
  | bvSet v k => exact State.onBit_completes
  | bvClr v k => exact State.onBit_completes
  | bvXor v k value => exact State.onBit_completes
  | bvGet v k => exact State.onBit_completes
  | bmSet m r c => exact State.onWritableCell_completes
  | bmClr m r c => exact State.onWritableCell_completes
  | bmGet m r c =>
    exact State.onMatrix_completes.trans
      (exists_congr fun M => and_congr_right fun _ => State.checked_completes)
  | bmFromData length byte => exact State.checked_completes.trans (allocates _)
  | bmToData m =>
    exact State.onMatrix_completes.trans
      (exists_congr fun M => and_congr_right fun _ => State.checked_completes)
  | bmMul a b =>
    refine State.onMatrix_completes.trans (exists_congr fun A => ?_)
    rw [exists_and_left]
    refine and_congr_right fun _ => State.onMatrix_completes.trans
      (exists_congr fun B => and_congr_right fun _ => ?_)
    exact State.checked_completes.trans (allocates _)
  | bvCreate _ | bmCreate _ _ | encode _ | decode _ | syndrome _ | lookup _ | correct _ _ | extract _
  | hamInit => exact completes_next _

/-! ### Violated preconditions -/

theorem State.onBit_of_le {s : State} {v i : Nat} {k : BitVector → Out} {V : BitVector}
    (hV : s.vectors[v]? = some V) (hi : V.length ≤ i) :
    s.onBit v i k = s.undefinedBehaviour .bitIndex := by
  simp [State.onBit, State.vector?, hV, Nat.not_lt.2 hi]

theorem BitMatrix.not_inRange {M : BitMatrix} {r c : Nat} (h : M.rows ≤ r ∨ M.cols ≤ c) :
    ¬ M.inRange r c := by
  rintro ⟨hr, hc⟩
  omega

theorem State.onWritableCell_of_le {s : State} {n r c : Nat} {k : Nat → BitMatrix → Out}
    {M : BitMatrix} (hM : s.matrices[n]? = some M) (h : M.rows ≤ r ∨ M.cols ≤ c) :
    s.onWritableCell (.inst n) r c k = s.undefinedBehaviour .cellInRange := by
  simp only [State.onWritableCell, hM, if_neg (BitMatrix.not_inRange h)]

theorem exec_bmSet_access (m : MatRef) (r c : Nat) (s : State) : exec (.bmSet m r c) s =
    s.onWritableCell m r c fun h M => .next (s.wroteMatrix h (M.setCell r c)) := rfl

theorem exec_bmClr_access (m : MatRef) (r c : Nat) (s : State) : exec (.bmClr m r c) s =
    s.onWritableCell m r c fun h M => .next (s.wroteMatrix h (M.clrCell r c)) := rfl

/-- Where BM.FROMDATA asks more than 8 columns, only a failed allocation keeps it from stopping. -/
theorem exec_bmFromData_of_lt {s : State} {length : Nat} (h : 8 < length) (ha : s.allocFails = false)
    (byte : Byte) : exec (.bmFromData length byte) s = s.undefinedBehaviour .fromDataLength :=
  if_neg (by simp [ha, h])

/-- Where BM.MUL's shapes do not match, only a failed allocation keeps it from stopping. -/
theorem exec_bmMul_of_ne {s : State} {a b : MatRef} {A B : BitMatrix} (hA : s.matrix? a = some A)
    (hB : s.matrix? b = some B) (h : A.cols ≠ B.rows) (ha : s.allocFails = false) :
    exec (.bmMul a b) s = s.undefinedBehaviour .shapesMatch :=
  (State.onMatrix_of hA).trans ((State.onMatrix_of hB).trans (if_neg (by simp [ha, h])))

/-- Every violated precondition ends the operation as the parameter says (60_exceptions.md R129). -/
theorem State.stopsOnViolations (s : State) : s.StopsOnViolations s.undefinedBehaviour := by
  refine ⟨fun v i V hV hi => ⟨?_, ?_, fun b => ?_, ?_⟩, fun h r c M hM out => ⟨?_, ?_⟩,
    fun m r c M hM out => ?_, fun m M hM cols => ?_, fun length byte ha h => ?_,
    fun a b A B ha hA hB h => exec_bmMul_of_ne hA hB h ha⟩
  · exact State.onBit_of_le hV hi
  · exact State.onBit_of_le hV hi
  · exact State.onBit_of_le hV hi
  · exact State.onBit_of_le hV hi
  · exact (exec_bmSet_access _ r c s).trans (State.onWritableCell_of_le hM out)
  · exact (exec_bmClr_access _ r c s).trans (State.onWritableCell_of_le hM out)
  · exact (State.onMatrix_of hM).trans (if_neg (BitMatrix.not_inRange out))
  · exact (State.onMatrix_of hM).trans (if_neg (Nat.not_le.2 cols))
  · exact exec_bmFromData_of_lt h ha byte

theorem State.undefinedBehaviour_refuse {s : State} (h : s.config.undefTreatment = .refuse) :
    s.undefinedBehaviour = fun p => .refused (.undefinedBehaviour p) := by
  funext p
  rw [State.undefinedBehaviour, h]

theorem State.undefinedBehaviour_fault {s : State} (h : s.config.undefTreatment = .fault) :
    s.undefinedBehaviour = fun p => .fault (.undefinedBehaviour p) := by
  funext p
  rw [State.undefinedBehaviour, h]

/-- Settles O49: violations stop as the parameter says, which is refusal; ENCODE and DECODE check nothing. -/
theorem violatedPreconditionsAreRefused : Obligations.ViolatedPreconditionsAreRefused := by
  unfold Obligations.ViolatedPreconditionsAreRefused
  intro s h
  exact ⟨State.undefinedBehaviour_refuse h ▸ s.stopsOnViolations, fun n => ⟨_, exec_encode n s⟩,
    fun w => ⟨_, rfl⟩⟩

/-! ### Every way of ending -/

/-- How an operation performed in `s` may end: a next state, one of two refusals, or an undefined
behaviour, which the parameter makes a refusal or a fault. -/
def State.MayEnd (s : State) (o : Out) : Prop :=
  (∃ t, o = .next t) ∨ o = .refused .absentOperand ∨ o = .refused .constantWrite ∨
    ∃ p, o = s.undefinedBehaviour p

section
variable {s : State}

theorem State.mayEnd_next (t : State) : s.MayEnd (.next t) := .inl ⟨t, rfl⟩

theorem State.mayEnd_absent : s.MayEnd (.refused .absentOperand) := .inr (.inl rfl)

theorem State.mayEnd_constant : s.MayEnd (.refused .constantWrite) := .inr (.inr (.inl rfl))

theorem State.mayEnd_undefined (p : Precondition) : s.MayEnd (s.undefinedBehaviour p) :=
  .inr (.inr (.inr ⟨p, rfl⟩))

theorem State.mayEnd_checked {t : State} {p : Prop} [Decidable p] {q : Precondition} :
    s.MayEnd (if p then .next t else s.undefinedBehaviour q) := by
  split
  · exact State.mayEnd_next t
  · exact State.mayEnd_undefined q

theorem State.mayEnd_onBit {v i : Nat} {f : BitVector → State} :
    s.MayEnd (s.onBit v i fun V => .next (f V)) := by
  unfold State.onBit
  split
  · exact State.mayEnd_absent
  · exact State.mayEnd_checked

theorem State.mayEnd_onMatrix {m : MatRef} {k : BitMatrix → Out} (hk : ∀ M, s.MayEnd (k M)) :
    s.MayEnd (s.onMatrix m k) := by
  unfold State.onMatrix
  split
  · exact State.mayEnd_absent
  · exact hk _

theorem State.mayEnd_onWritableCell {m : MatRef} {r c : Nat} {f : Nat → BitMatrix → State} :
    s.MayEnd (s.onWritableCell m r c fun h M => .next (f h M)) := by
  unfold State.onWritableCell
  split
  · exact State.mayEnd_constant
  · exact State.mayEnd_constant
  · split
    · exact State.mayEnd_absent
    · exact State.mayEnd_checked

end

/-- Every operation ends in one of these ways. -/
theorem exec_mayEnd (i : Instr) (s : State) : s.MayEnd (exec i s) := by
  cases i with
  | bvSet _ _ | bvClr _ _ | bvXor _ _ _ | bvGet _ _ => exact State.mayEnd_onBit
  | bmSet _ _ _ | bmClr _ _ _ => exact State.mayEnd_onWritableCell
  | bmGet m r c => exact State.mayEnd_onMatrix fun _ => State.mayEnd_checked
  | bmFromData length byte => exact State.mayEnd_checked
  | bmToData m => exact State.mayEnd_onMatrix fun _ => State.mayEnd_checked
  | bmMul a b => exact State.mayEnd_onMatrix fun _ => State.mayEnd_onMatrix fun _ => State.mayEnd_checked
  | bvCreate _ | bmCreate _ _ | encode _ | decode _ | syndrome _ | lookup _ | correct _ _ | extract _
  | hamInit => exact State.mayEnd_next _

/-- A step does nothing, refuses a request that decodes to no operation, or performs an operation in a state
with the same parameters. -/
theorem step_cases (s : State) : step s = .next s ∨ (∃ why, step s = .refused (.rejected why)) ∨
    ∃ i t, t.config = s.config ∧ step s = exec i t := by
  cases hp : s.pending with
  | nil => exact .inl (nothingPresentedNothingHappens s hp)
  | cons q rest =>
    cases hq : q.decode with
    | op i => exact .inr (.inr ⟨i, { s with pending := rest }, rfl, stepPerformsTheDecodedOperation s q rest i hp hq⟩)
    | reject why =>
      refine .inr (.inl ⟨why, ?_⟩)
      simp [step, State.fetch, hp, hq]

/-- What a step may end with that is no next state. -/
theorem step_stops (s : State) : (∃ t, step s = .next t) ∨ (∃ why, step s = .refused (.rejected why)) ∨
    step s = .refused .absentOperand ∨ step s = .refused .constantWrite ∨
    ∃ p, step s = s.undefinedBehaviour p := by
  rcases step_cases s with h | h | ⟨i, t, config, h⟩
  · exact .inl ⟨s, h⟩
  · exact .inr (.inl h)
  · have undefined : t.undefinedBehaviour = s.undefinedBehaviour := by
      funext p
      rw [State.undefinedBehaviour, State.undefinedBehaviour, config]
    rw [h]
    rcases exec_mayEnd i t with next | stops
    · exact .inl next
    · exact .inr (.inr (undefined ▸ stops))

/-- Settles O50: a step's only fault, and its only refusal that names a precondition, is an undefined
behaviour, and the parameter decides which of the two that is. -/
theorem undefTreatmentDecidesTheStop : Obligations.UndefTreatmentDecidesTheStop := by
  unfold Obligations.UndefTreatmentDecidesTheStop
  refine ⟨fun s f h => ?_, fun s p h => ?_, fun s h => State.undefinedBehaviour_fault h ▸ s.stopsOnViolations⟩
  · rcases step_stops s with ⟨t, e⟩ | ⟨why, e⟩ | e | e | ⟨q, e⟩ <;>
      simp [e, State.undefinedBehaviour_refuse h]
  · rcases step_stops s with ⟨t, e⟩ | ⟨why, e⟩ | e | e | ⟨q, e⟩ <;>
      simp [e, State.undefinedBehaviour_fault h]

/-! ### Absent operands -/

section
variable {s : State} {h : Nat}

theorem State.onBit_absent {v i : Nat} {k : BitVector → Out} (hv : s.vectors.length ≤ v) :
    s.onBit v i k = .refused .absentOperand := by
  simp only [State.onBit, State.vector?, List.getElem?_eq_none hv]

theorem State.onMatrix_absent {k : BitMatrix → Out} (hh : s.matrices.length ≤ h) :
    s.onMatrix (.inst h) k = .refused .absentOperand := by
  simp only [State.onMatrix, State.matrix?, List.getElem?_eq_none hh]

theorem State.onWritableCell_absent {r c : Nat} {k : Nat → BitMatrix → Out}
    (hh : s.matrices.length ≤ h) : s.onWritableCell (.inst h) r c k = .refused .absentOperand := by
  simp only [State.onWritableCell, List.getElem?_eq_none hh]

end

/-- Settles O52: each access looks for its operand first; BM.MUL for its left one before its right one. -/
theorem absentOperandsAreRefused : Obligations.AbsentOperandsAreRefused := by
  unfold Obligations.AbsentOperandsAreRefused
  refine fun s => ⟨fun v i hv => ⟨?_, ?_, fun b => ?_, ?_⟩,
    fun h r c hh => ⟨?_, ?_, ?_, ?_, fun b => ?_, fun a A hA => ?_⟩⟩
  · exact State.onBit_absent hv
  · exact State.onBit_absent hv
  · exact State.onBit_absent hv
  · exact State.onBit_absent hv
  · exact (exec_bmSet_access _ r c s).trans (State.onWritableCell_absent hh)
  · exact (exec_bmClr_access _ r c s).trans (State.onWritableCell_absent hh)
  · exact State.onMatrix_absent hh
  · exact State.onMatrix_absent hh
  · exact State.onMatrix_absent hh
  · exact (State.onMatrix_of hA).trans (State.onMatrix_absent hh)

end Sys2Proof.Machine
end

section
/-! Failed creations (60_exceptions.md R127, R131 (c); 93_implementation_defined.md U6): when a creating
operation delivers `absent`, and that a failed allocation is all that `ALLOC_CAN_FAIL` adds. -/

namespace Sys2Proof.Machine

/-! ### When `absent` is delivered -/

section
variable {s : State} {V? : Option BitVector} {M? : Option BitMatrix}

theorem State.installVector_of_fails (ha : s.allocFails = true) :
    DeliversAbsent s (s.installVector V?) := by
  cases V? with
  | none => exact s.installVector_none
  | some V => constructor <;> simp [State.installVector, ha]

theorem State.installMatrix_of_fails (ha : s.allocFails = true) :
    DeliversAbsent s (s.installMatrix M?) := by
  cases M? with
  | none => exact s.installMatrix_none
  | some M => constructor <;> simp [State.installMatrix, ha]

/-- A vector creation delivers `absent` exactly when its parameter test or its allocation fails. -/
theorem State.installVector_absent_iff :
    (s.installVector V?).result = .absent ↔ V? = none ∨ s.allocFails = true := by
  cases V? with
  | none => simp [s.installVector_none.result]
  | some V =>
    cases ha : s.allocFails with
    | false => simp [(State.installVector_adds ha V).result]
    | true => simp [(State.installVector_of_fails ha).result]

theorem State.installMatrix_absent_iff :
    (s.installMatrix M?).result = .absent ↔ M? = none ∨ s.allocFails = true := by
  cases M? with
  | none => simp [s.installMatrix_none.result]
  | some M =>
    cases ha : s.allocFails with
    | false => simp [(State.installMatrix_adds ha M).result]
    | true => simp [(State.installMatrix_of_fails ha).result]

/-- A vector creation that delivers `absent` changes nothing else. -/
theorem State.installVector_absent (h : (s.installVector V?).result = .absent) :
    DeliversAbsent s (s.installVector V?) := by
  rcases State.installVector_cases s V? with absent | ⟨V, -, adds⟩
  · exact absent
  · cases adds.result.symm.trans h

theorem State.installMatrix_absent (h : (s.installMatrix M?).result = .absent) :
    DeliversAbsent s (s.installMatrix M?) := by
  rcases State.installMatrix_cases s M? with absent | ⟨M, -, adds⟩
  · exact absent
  · cases adds.result.symm.trans h

end

theorem BitVector.create_eq_none_iff (length : Nat) :
    BitVector.create length = none ↔ length < 1 := by
  simp [BitVector.create]

theorem BitMatrix.create_eq_none_iff (rows cols : Nat) :
    BitMatrix.create rows cols = none ↔ rows < 1 ∨ cols < 1 := by
  rw [BitMatrix.create_eq, ite_eq_left_iff]
  simp only [reduceCtorEq, imp_false, not_not]

theorem BitMatrix.fromData_eq_none_iff (length : Nat) (byte : Byte) :
    BitMatrix.fromData length byte = none ↔ length < 1 := by
  simp [BitMatrix.fromData, BitMatrix.create_eq_none_iff]

/-! ### The parameter -/

/-- The state with `ALLOC_CAN_FAIL` false (00_scope.md R5). -/
def State.neverFailing (s : State) : State :=
  { s with config := { s.config with allocCanFail := false } }

theorem State.neverFailing_allocFails (s : State) : s.neverFailing.allocFails = false :=
  State.allocFails_of_false rfl

theorem State.neverFailing_matrix? (s : State) (m : MatRef) : s.neverFailing.matrix? m = s.matrix? m := by
  cases m <;> rfl

/-- The operations that create an instance (60_exceptions.md R127). -/
def Creates (i : Instr) : Prop :=
  i.op = .bvCreate ∨ i.op = .bmCreate ∨ i.op = .bmFromData ∨ i.op = .bmMul

/-- An operation that creates nothing does not deliver `absent`, and `ALLOC_CAN_FAIL` is nothing to it. -/
theorem exec_of_not_creates {i : Instr} {s t : State} (hi : ¬ Creates i) (h : exec i s = .next t) :
    t.result ≠ .absent ∧ exec i s.neverFailing = .next t.neverFailing := by
  cases i with
  | bvCreate _ | bmCreate _ _ | bmFromData _ _ | bmMul _ _ => simp [Creates, Instr.op] at hi
  | bvSet v k =>
    obtain ⟨V, hV, hk, ⟨⟩⟩ := State.onBit_next h
    exact ⟨nofun, exec_bvSet (s := s.neverFailing) hV hk⟩
  | bvClr v k =>
    obtain ⟨V, hV, hk, ⟨⟩⟩ := State.onBit_next h
    exact ⟨nofun, exec_bvClr (s := s.neverFailing) hV hk⟩
  | bvXor v k value =>
    obtain ⟨V, hV, hk, ⟨⟩⟩ := State.onBit_next h
    exact ⟨nofun, exec_bvXor (s := s.neverFailing) hV hk⟩
  | bvGet v k =>
    obtain ⟨V, hV, hk, ⟨⟩⟩ := State.onBit_next h
    exact ⟨nofun, State.onBit_of (s := s.neverFailing) hV hk⟩
  | bmSet m r c =>
    obtain ⟨n, M, rfl, hM, hr, ⟨⟩⟩ := State.onWritableCell_next h
    exact ⟨nofun, exec_bmSet (s := s.neverFailing) hM hr⟩
  | bmClr m r c =>
    obtain ⟨n, M, rfl, hM, hr, ⟨⟩⟩ := State.onWritableCell_next h
    exact ⟨nofun, exec_bmClr (s := s.neverFailing) hM hr⟩
  | bmGet m r c =>
    obtain ⟨M, hM, h⟩ := State.onMatrix_next h
    split at h
    · next hr =>
      cases h
      exact ⟨nofun, exec_bmGet (s := s.neverFailing) ((s.neverFailing_matrix? m).trans hM) hr⟩
    · exact absurd h (State.undefinedBehaviour_ne_next _ _ _)
  | bmToData m =>
    obtain ⟨M, hM, h⟩ := State.onMatrix_next h
    split at h
    · next hc =>
      cases h
      exact ⟨nofun, exec_bmToData (s := s.neverFailing) ((s.neverFailing_matrix? m).trans hM) hc⟩
    · exact absurd h (State.undefinedBehaviour_ne_next _ _ _)
  | encode _ | decode _ | syndrome _ | lookup _ | correct _ _ | extract _ | hamInit =>
    cases h
    exact ⟨nofun, rfl⟩

/-- Settles O53: the parameter test and the allocation decide, and no operation but the creations ends in
`absent`. -/
theorem absentExactlyOnFailedCreation : Obligations.AbsentExactlyOnFailedCreation := by
  unfold Obligations.AbsentExactlyOnFailedCreation
  refine ⟨fun length s => ⟨_, exec_bvCreate length s, ?_, State.installVector_absent⟩,
    fun rows cols s => ⟨_, exec_bmCreate rows cols s, ?_, State.installMatrix_absent⟩,
    fun length byte s h => ⟨_, exec_bmFromData h byte s, ?_, State.installMatrix_absent⟩,
    fun a b A B s hA hB gA gB h => ⟨_, exec_bmMul hA hB h, ?_, State.installMatrix_absent⟩,
    fun i s t h absent => ?_, fun s => State.allocFails_of_false, rfl⟩
  · rw [State.installVector_absent_iff, BitVector.create_eq_none_iff]
  · rw [State.installMatrix_absent_iff, BitMatrix.create_eq_none_iff]
  · rw [State.installMatrix_absent_iff, BitMatrix.fromData_eq_none_iff]
  · simp [State.installMatrix_absent_iff, BitMatrix.mul_of_good gA gB]
  · by_contra hi
    exact (exec_of_not_creates hi h).1 absent

/-! ### A failed allocation comes first -/

theorem exec_bmFromData_of_fails {s : State} (ha : s.allocFails = true) (length : Nat) (byte : Byte) :
    exec (.bmFromData length byte) s =
      .next (s.installMatrix (BitMatrix.fromData length byte)) := if_pos (.inr ha)

theorem exec_bmMul_of_fails {s : State} {a b : MatRef} {A B : BitMatrix} (hA : s.matrix? a = some A)
    (hB : s.matrix? b = some B) (ha : s.allocFails = true) :
    exec (.bmMul a b) s = .next (s.installMatrix (BitMatrix.mul A B)) :=
  (State.onMatrix_of hA).trans ((State.onMatrix_of hB).trans (if_pos (.inr ha)))

/-- Settles O54: the allocation either fails, and then nothing is checked, or it does not, and then the check
stops the operation. -/
theorem failedCreationComesFirst : Obligations.FailedCreationComesFirst := by
  unfold Obligations.FailedCreationComesFirst
  refine ⟨fun length byte s h => ?_, fun a b A B s hA hB h => ?_⟩
  · cases ha : s.allocFails with
    | true => exact .inl ⟨rfl, _, exec_bmFromData_of_fails ha length byte, State.installMatrix_of_fails ha⟩
    | false => exact .inr ⟨rfl, exec_bmFromData_of_lt h ha byte⟩
  · cases ha : s.allocFails with
    | true => exact .inl ⟨rfl, _, exec_bmMul_of_fails hA hB ha, State.installMatrix_of_fails ha⟩
    | false => exact .inr ⟨rfl, exec_bmMul_of_ne hA hB h ha⟩

/-! ### Nothing else is added -/

/-- `t` shows and holds what `u` does, the parameters and the free values drawn aside. -/
def SameButParameters (t u : State) : Prop :=
  t.vectors = u.vectors ∧ t.matrices = u.matrices ∧ t.consts = u.consts ∧
    t.pending = u.pending ∧ t.result = u.result ∧ t.dout = u.dout ∧ t.status = u.status

theorem State.sameButParameters_neverFailing (t : State) : SameButParameters t t.neverFailing :=
  ⟨rfl, rfl, rfl, rfl, rfl, rfl, rfl⟩

/-- Where the allocation does not fail, a vector creation does what it does without the parameter. -/
theorem State.sameButParameters_installVector {s : State} (ha : s.allocFails = false)
    (V? : Option BitVector) :
    SameButParameters (s.installVector V?) (s.neverFailing.installVector V?) := by
  cases V? with
  | none => exact ⟨rfl, rfl, rfl, rfl, rfl, rfl, rfl⟩
  | some V =>
    have adds := State.installVector_adds ha V
    have adds' := State.installVector_adds s.neverFailing_allocFails V
    exact ⟨adds.vectors.trans adds'.vectors.symm, by simp; rfl, by simp; rfl, by simp; rfl,
      adds.result.trans adds'.result.symm, by simp, by simp⟩

theorem State.sameButParameters_installMatrix {s : State} (ha : s.allocFails = false)
    (M? : Option BitMatrix) :
    SameButParameters (s.installMatrix M?) (s.neverFailing.installMatrix M?) := by
  cases M? with
  | none => exact ⟨rfl, rfl, rfl, rfl, rfl, rfl, rfl⟩
  | some M =>
    have adds := State.installMatrix_adds ha M
    have adds' := State.installMatrix_adds s.neverFailing_allocFails M
    exact ⟨by simp; rfl, adds.matrices.trans adds'.matrices.symm, by simp; rfl, by simp; rfl,
      adds.result.trans adds'.result.symm, by simp, by simp⟩

/-- A creation whose allocation fails delivers `absent`, if it completes. -/
theorem exec_creates_of_fails {i : Instr} {s t : State} (hi : Creates i) (h : exec i s = .next t)
    (ha : s.allocFails = true) : DeliversAbsent s t := by
  cases i with
  | bvCreate length => cases h; exact State.installVector_of_fails ha
  | bmCreate rows cols => cases h; exact State.installMatrix_of_fails ha
  | bmFromData length byte =>
    cases (exec_bmFromData_of_fails ha length byte).symm.trans h
    exact State.installMatrix_of_fails ha
  | bmMul a b =>
    obtain ⟨A, hA, hk⟩ := State.onMatrix_next h
    obtain ⟨B, hB, -⟩ := State.onMatrix_next hk
    cases (exec_bmMul_of_fails hA hB ha).symm.trans h
    exact State.installMatrix_of_fails ha
  | _ => simp [Creates, Instr.op] at hi

/-- A creation whose allocation does not fail does what it does without the parameter. -/
theorem exec_creates_of_not_fails {i : Instr} {s t : State} (hi : Creates i) (h : exec i s = .next t)
    (ha : s.allocFails = false) : ∃ u, exec i s.neverFailing = .next u ∧ SameButParameters t u := by
  cases i with
  | bvCreate length => cases h; exact ⟨_, rfl, State.sameButParameters_installVector ha _⟩
  | bmCreate rows cols => cases h; exact ⟨_, rfl, State.sameButParameters_installMatrix ha _⟩
  | bmFromData length byte =>
    rcases Nat.lt_or_ge 8 length with lt | le
    · exact absurd ((exec_bmFromData_of_lt lt ha byte).symm.trans h)
        (State.undefinedBehaviour_ne_next _ _ _)
    · cases (exec_bmFromData le byte s).symm.trans h
      exact ⟨_, exec_bmFromData le byte _, State.sameButParameters_installMatrix ha _⟩
  | bmMul a b =>
    obtain ⟨A, hA, hk⟩ := State.onMatrix_next h
    obtain ⟨B, hB, -⟩ := State.onMatrix_next hk
    by_cases shapes : A.cols = B.rows
    · cases (exec_bmMul hA hB shapes).symm.trans h
      exact ⟨_, exec_bmMul ((s.neverFailing_matrix? a).trans hA) ((s.neverFailing_matrix? b).trans hB)
        shapes, State.sameButParameters_installMatrix ha _⟩
    · exact absurd ((exec_bmMul_of_ne hA hB shapes ha).symm.trans h)
        (State.undefinedBehaviour_ne_next _ _ _)
  | _ => simp [Creates, Instr.op] at hi

/-- Settles O55: a creation delivers `absent` or is as without the parameter, as its allocation fails or does
not; to every other operation the parameter is nothing. -/
theorem allocationFailureOnlyAddsAbsent : Obligations.AllocationFailureOnlyAddsAbsent := by
  unfold Obligations.AllocationFailureOnlyAddsAbsent
  intro i s t h
  by_cases hi : Creates i
  · cases ha : s.allocFails with
    | true =>
      have absent := exec_creates_of_fails hi h ha
      exact .inl ⟨absent.result, absent, hi⟩
    | false => exact .inr (exec_creates_of_not_fails hi h ha)
  · exact .inr ⟨_, (exec_of_not_creates hi h).2, t.sameButParameters_neverFailing⟩

end Sys2Proof.Machine
end

section
/-! Where bits live, the two conversions and the multiplier's laws (20_memory.md R31, R34; 41_bitmatrix.md R89,
R90). -/

namespace Sys2Proof.Machine

/-! ### Places of bits -/

/-- A bit read by shifting it down and masking it. -/
theorem getLsbD_eq_shift_and_one (x : Byte) (k : Nat) :
    x.getLsbD k = ((x >>> k) &&& 1#8 == 1#8) := by
  have shifted : (x >>> k).getLsbD 0 = x.getLsbD k := by simp
  rw [BitVec.and_one_eq_setWidth_ofBool_getLsbD, shifted]
  cases x.getLsbD k <;> rfl

/-- Settles O15: the statement's masks are those of the model's single-bit operations. -/
theorem bitsArePackedMsbFirst : Obligations.BitsArePackedMsbFirst := by
  unfold Obligations.BitsArePackedMsbFirst
  refine ⟨fun V i => getLsbD_eq_shift_and_one _ _, fun s v i V hV g hi => ⟨?_, ?_⟩,
    fun V => ⟨rfl, rfl, rfl⟩, by decide⟩
  · refine ⟨_, exec_bvSet hV hi, State.onlyVectorUnit_wroteVector hV rfl
      fun u => BitVector.setBit_memRead_other g.wf, ?_⟩
    rw [State.wroteVector_held hV, Option.map_some]
    exact congrArg some ((BitVector.memRead_memWrite g.wf _ _ _).trans (if_pos rfl))
  · refine ⟨_, exec_bvClr hV hi, State.onlyVectorUnit_wroteVector hV rfl
      fun u => BitVector.clrBit_memRead_other g.wf, ?_⟩
    rw [State.wroteVector_held hV, Option.map_some]
    exact congrArg some ((BitVector.memRead_memWrite g.wf _ _ _).trans (if_pos rfl))

/-! ### The conversions -/

theorem getLsbD_bitrev8_sub (x : Byte) {i : Nat} (hi : i < 8) :
    (bitrev8 x).getLsbD (7 - i) = x.getLsbD i := by
  rw [getLsbD_bitrev8 x (by omega), show 7 - (7 - i) = i by omega]

theorem bitrev8_bitrev8 (x : Byte) : bitrev8 (bitrev8 x) = x :=
  BitVec.eq_of_getLsbD_eq fun i hi => by rw [getLsbD_bitrev8 _ hi, getLsbD_bitrev8_sub x hi]

/-- BM.FROMDATA with 8 columns creates the row of the byte (R85). -/
theorem BitMatrix.fromData_eight (x : Byte) : BitMatrix.fromData 8 x = some (Codec.rowOf 8 x) :=
  BitMatrix.fromData_of_le (by decide) x

/-- Settles O27: the matrix created is the row of the byte, which BM.TODATA reads in the opposite order. -/
theorem conversionAsymmetry : Obligations.ConversionAsymmetry := by
  unfold Obligations.ConversionAsymmetry
  refine ⟨fun s x ha => ?_, fun x i => getLsbD_bitrev8_sub x, bitrev8_bitrev8, by decide, by decide,
    by decide, by decide, by decide⟩
  have adds := State.installMatrix_adds ha (Codec.rowOf 8 x)
  rw [← BitMatrix.fromData_eight x] at adds
  refine ⟨_, _, exec_bmFromData (Nat.le_refl 8) x s, adds.result, ?_⟩
  have held : (s.installMatrix (BitMatrix.fromData 8 x)).matrix? (.inst s.matrices.length) =
      some (Codec.rowOf 8 x) := by
    rw [State.matrix?_inst, adds.matrices, List.getElem?_concat_length]
  obtain ⟨-, -, cols, -⟩ := Codec.rowOf_spec (by decide : 1 ≤ 8) x
  rw [← Codec.toData_rowOf]
  exact State.performs_of_deliver (exec_bmToData held cols.ge)

/-! ### The multiplier -/

/-- A cell of a product is the sum of products (R88). -/
theorem BitMatrix.cell_mul {A B C : BitMatrix} (gA : A.Good) (gB : B.Good)
    (h : BitMatrix.mul A B = some C) {i j : Nat} (hi : i < A.rows) (hj : j < B.cols) :
    C.cell i j = xorSum A.cols (fun k => A.cell i k && B.cell k j) := by
  obtain rfl := Option.some.inj ((BitMatrix.mul_of_good gA gB).symm.trans h)
  exact Codec.cell_product hi hj

/-- The product is linear in its left argument, cell by cell. -/
theorem BitMatrix.mul_left_linear {A A' A'' B P P' P'' : BitMatrix} (gA : A.Good) (gA' : A'.Good)
    (gA'' : A''.Good) (gB : B.Good) (rows' : A'.rows = A.rows) (rows'' : A''.rows = A.rows)
    (cols' : A'.cols = A.cols) (cols'' : A''.cols = A.cols)
    (sum : ∀ i < A.rows, ∀ k < A.cols, A''.cell i k = (A.cell i k ^^ A'.cell i k))
    (hP : BitMatrix.mul A B = some P) (hP' : BitMatrix.mul A' B = some P')
    (hP'' : BitMatrix.mul A'' B = some P'') {i j : Nat} (hi : i < A.rows) (hj : j < B.cols) :
    P''.cell i j = (P.cell i j ^^ P'.cell i j) := by
  rw [BitMatrix.cell_mul gA gB hP hi hj, BitMatrix.cell_mul gA' gB hP' (rows' ▸ hi) hj,
    BitMatrix.cell_mul gA'' gB hP'' (rows'' ▸ hi) hj, cols', cols'', ← xorSum_xor]
  exact xorSum_congr fun k hk => by rw [sum i hi k hk, Bool.and_xor_distrib_right]

/-- The product is linear in its right argument, cell by cell. -/
theorem BitMatrix.mul_right_linear {A B B' B'' P P' P'' : BitMatrix} (gA : A.Good) (gB : B.Good)
    (gB' : B'.Good) (gB'' : B''.Good) (shapes : A.cols = B.rows)
    (cols' : B'.cols = B.cols) (cols'' : B''.cols = B.cols)
    (sum : ∀ k < B.rows, ∀ j < B.cols, B''.cell k j = (B.cell k j ^^ B'.cell k j))
    (hP : BitMatrix.mul A B = some P) (hP' : BitMatrix.mul A B' = some P')
    (hP'' : BitMatrix.mul A B'' = some P'') {i j : Nat} (hi : i < A.rows) (hj : j < B.cols) :
    P''.cell i j = (P.cell i j ^^ P'.cell i j) := by
  rw [BitMatrix.cell_mul gA gB hP hi hj, BitMatrix.cell_mul gA gB' hP' hi (cols' ▸ hj),
    BitMatrix.cell_mul gA gB'' hP'' hi (cols'' ▸ hj), ← xorSum_xor]
  exact xorSum_congr fun k hk => by rw [sum k (shapes ▸ hk) j hj, Bool.and_xor_distrib_left]

/-- Settles O29: a sum of products selects rows of `B`, and sums of exclusive ors are exclusive ors of sums. -/
theorem multiplierIsLinear : Obligations.MultiplierIsLinear := by
  unfold Obligations.MultiplierIsLinear
  refine ⟨fun A B C gA gB rows shapes h j hj => ?_, ?_, ?_⟩
  · rw [BitMatrix.cell_mul gA gB h (rows.symm ▸ Nat.one_pos) hj, shapes]
    exact xorSum_congr fun k _ => by cases A.cell 0 k <;> rfl
  · intro A A' A'' B P P' P'' gA gA' gA'' gB _ rows' rows'' cols' cols'' sum hP hP' hP'' i hi j hj
    exact BitMatrix.mul_left_linear gA gA' gA'' gB rows' rows'' cols' cols'' sum hP hP' hP'' hi hj
  · intro A B B' B'' P P' P'' gA gB gB' gB'' shapes _ _ cols' cols'' sum hP hP' hP'' i hi j hj
    exact BitMatrix.mul_right_linear gA gB gB' gB'' shapes cols' cols'' sum hP hP' hP'' hi hj

/-! ### `G` times `HT` -/

/-- Good matrices of one shape with the same cells are equal. -/
theorem BitMatrix.ext_cells {M N : BitMatrix} (gM : M.Good) (gN : N.Good) (rows : M.rows = N.rows)
    (cols : M.cols = N.cols) (cells : ∀ r < M.rows, ∀ c < M.cols, M.cell r c = N.cell r c) : M = N := by
  obtain ⟨-, colsPos, lengthM, goodM⟩ := gM
  obtain ⟨-, -, lengthN, goodN⟩ := gN
  have vec : M.vec = N.vec := by
    refine BitVector.ext_bits goodM goodN (by rw [lengthM, lengthN, rows, cols]) fun i hi => ?_
    rw [lengthM] at hi
    have cell := cells (i / M.cols) (Nat.div_lt_of_lt_mul (by rwa [Nat.mul_comm])) (i % M.cols)
      (Nat.mod_lt i colsPos)
    simp only [BitMatrix.cell, BitMatrix.index, ← cols, Nat.div_add_mod'] at cell
    exact cell
  cases M; cases N; simp_all

theorem Constants.rom_G_good : Constants.rom.G.Good := by decide

theorem Constants.rom_HT_good : Constants.rom.HT.Good := by decide

/-- The rows of `G` are orthogonal to the columns of `HT` (10_state.md R15). -/
theorem gOne_mul_htOne :
    ∀ r < 4, ∀ c < 4, xorSum 8 (fun k => gOne r k && htOne k c) = false := by decide

theorem BitMatrix.mul_G_HT :
    BitMatrix.mul Constants.rom.G Constants.rom.HT = some (BitMatrix.zero 4 4) := by
  rw [BitMatrix.mul_of_good Constants.rom_G_good Constants.rom_HT_good]
  obtain ⟨good, rows, cols, -⟩ := BitMatrix.mulInto_spec (A := Constants.rom.G) (B := Constants.rom.HT)
    (BitMatrix.zero_good (by decide : 1 ≤ 4) (by decide : 1 ≤ 4)) (Nat.le_refl 4) rfl
  refine congrArg some (BitMatrix.ext_cells good (BitMatrix.zero_good (by decide) (by decide)) rows cols
    fun r hr c hc => ?_)
  replace hr : r < 4 := hr.trans_eq rows
  replace hc : c < 4 := hc.trans_eq cols
  calc (Codec.product Constants.rom.G Constants.rom.HT).cell r c
    _ = xorSum 8 (fun k => Constants.rom.G.cell r k && Constants.rom.HT.cell k c) :=
      Codec.cell_product hr hc
    _ = xorSum 8 (fun k => gOne r k && htOne k c) :=
      xorSum_congr fun k hk => by rw [Constants.rom_G_cell r hr k hk, Constants.rom_HT_cell k hk c hc]
    _ = false := gOne_mul_htOne r hr c hc
    _ = (BitMatrix.zero 4 4).cell r c := (BitMatrix.zero_cell 4 4 r c).symm

/-- Settles O30, from the product of the two constants. -/
theorem generatorTimesCheckIsZero : Obligations.GeneratorTimesCheckIsZero := by
  unfold Obligations.GeneratorTimesCheckIsZero
  intro s hs ha
  have hG : s.matrix? .g = some Constants.rom.G := by rw [State.matrix?, hs]
  have hHT : s.matrix? .ht = some Constants.rom.HT := by rw [State.matrix?, hs]
  refine ⟨_, exec_bmMul hG hHT rfl, ?_⟩
  rw [BitMatrix.mul_G_HT]
  exact State.installMatrix_adds ha _

end Sys2Proof.Machine
end

section
/-! ENCODE and SYNDROME in closed form, and the properties of the code that follow (42_codec_encoder.md R97 to
R99; 43_decoder.md R100, R101). -/

namespace Sys2Proof.Machine

/-! ### What an operation performs -/

/-- An operation delivers one result. -/
theorem State.Performs.unique {s : State} {i : Instr} {r r' : Result} (h : s.Performs i r)
    (h' : s.Performs i r') : r = r' := by
  obtain ⟨t, run, -, rfl, -⟩ := h
  obtain ⟨t', run', -, rfl, -⟩ := h'
  rw [Host.Outcome.next.inj (run.symm.trans run')]

section
variable {s : State} (hs : s.consts = Constants.rom)
include hs

theorem State.performs_encode_rom (n : Nibble) :
    s.Performs (.encode n) (.codeword (Codec.encode Constants.rom.G n)) :=
  State.performs_of_deliver (by rw [exec_encode, hs])

theorem State.performs_syndrome_rom (w : Byte) :
    s.Performs (.syndrome w) (.index (Codec.syndrome Constants.rom.HT w)) :=
  hs ▸ s.performs_syndrome w

theorem State.performs_lookup_rom (idx : Nibble) :
    s.Performs (.lookup idx) (.entry (Codec.lookup Constants.rom.errTab idx)) :=
  hs ▸ s.performs_lookup idx

theorem State.performs_decode_rom (w : Byte) :
    s.Performs (.decode w) (.decoded (Codec.decode Constants.rom.HT Constants.rom.errTab w).1
      (Codec.decode Constants.rom.HT Constants.rom.errTab w).2) :=
  hs ▸ s.performs_decode w

end

/-! ### ENCODE in closed form -/

/-- The exclusive or of the rows `87`, `4B`, `2D`, `1E` of `G` that the bits of a nibble select (R97). -/
def Codec.word (n : Nibble) : Byte :=
  (if n.getLsbD 0 then 0x87 else 0) ^^^ (if n.getLsbD 1 then 0x4B else 0) ^^^
    (if n.getLsbD 2 then 0x2D else 0) ^^^ (if n.getLsbD 3 then 0x1E else 0)

theorem getLsbD_ite_zero (b : Bit) (x : Byte) (p : Nat) :
    (if b then x else 0).getLsbD p = (b && x.getLsbD p) := by
  cases b <;> simp

/-- The bytes of `G`, most significant bit first, hold its cells (10_state.md R12). -/
theorem getLsbD_rows_G : ∀ p < 8,
    (0x87 : Byte).getLsbD p = gOne 0 (7 - p) ∧ (0x4B : Byte).getLsbD p = gOne 1 (7 - p) ∧
    (0x2D : Byte).getLsbD p = gOne 2 (7 - p) ∧ (0x1E : Byte).getLsbD p = gOne 3 (7 - p) := by decide

theorem Codec.encode_eq_word (n : Nibble) : Codec.encode Constants.rom.G n = Codec.word n := by
  refine BitVec.eq_of_getLsbD_eq fun p hp => ?_
  obtain ⟨row0, row1, row2, row3⟩ := getLsbD_rows_G p hp
  rw [Codec.getLsbD_encode n hp]
  simp only [Codec.word, BitVec.getLsbD_xor, getLsbD_ite_zero, row0, row1, row2, row3, xorSum,
    Bool.false_xor]

/-- The systematic bits: the high nibble is the data nibble reversed. -/
theorem Codec.getLsbD_encode_data (n : Nibble) {k : Nat} (hk : k < 4) :
    (Codec.encode Constants.rom.G n).getLsbD (7 - k) = n.getLsbD k := by
  rw [← Codec.getLsbD_extract _ hk, Codec.extract_encode]

/-- The parity bits, each the exclusive or of three data bits. -/
theorem Codec.getLsbD_encode_parity (n : Nibble) :
    (Codec.encode Constants.rom.G n).getLsbD 3 = (n.getLsbD 1 ^^ n.getLsbD 2 ^^ n.getLsbD 3) ∧
    (Codec.encode Constants.rom.G n).getLsbD 2 = (n.getLsbD 0 ^^ n.getLsbD 2 ^^ n.getLsbD 3) ∧
    (Codec.encode Constants.rom.G n).getLsbD 1 = (n.getLsbD 0 ^^ n.getLsbD 1 ^^ n.getLsbD 3) ∧
    (Codec.encode Constants.rom.G n).getLsbD 0 = (n.getLsbD 0 ^^ n.getLsbD 1 ^^ n.getLsbD 2) := by
  refine ⟨?_, ?_, ?_, ?_⟩
  all_goals
    rw [Codec.getLsbD_encode n (by decide)]
    simp [xorSum, gOne]

/-- A parity column of `G` is the complement of a data column, so a parity bit is the sum of all data bits
without one of them. -/
theorem Codec.getLsbD_encode_parity_sum (n : Nibble) {j : Nat} (hj : j < 4) :
    (Codec.encode Constants.rom.G n).getLsbD (3 - j) =
      (xorSum 4 (fun k => n.getLsbD k) ^^ n.getLsbD j) := by
  have complement : ∀ j < 4, ∀ k < 4, gOne k (7 - (3 - j)) = !gOne k j := by decide
  have column : xorSum 4 (fun k => n.getLsbD k && gOne k j) = n.getLsbD j := by
    have bit := Codec.getLsbD_encode n (p := 7 - j) (by omega)
    rw [show 7 - (7 - j) = j by omega, Codec.getLsbD_encode_data n hj] at bit
    exact bit.symm
  rw [Codec.getLsbD_encode n (by omega), ← column, ← xorSum_xor]
  refine xorSum_congr fun k hk => ?_
  rw [complement j hj k hk]
  cases n.getLsbD k <;> simp

/-- Settles O33: the word delivered is a sum of rows of `G`, read off bit by bit. -/
theorem encodeClosedForm : Obligations.EncodeClosedForm := by
  unfold Obligations.EncodeClosedForm
  intro s n hs
  obtain ⟨t, run, only, result, dout, status⟩ := State.performs_encode_rom hs n
  obtain ⟨parity3, parity2, parity1, parity0⟩ := Codec.getLsbD_encode_parity n
  have data := fun k hk => Codec.getLsbD_encode_data n (k := k) hk
  exact ⟨t, _, run, only, result, dout, status, data 0 (by decide), data 1 (by decide),
    data 2 (by decide), data 3 (by decide), parity3, parity2, parity1, parity0,
    Codec.encode_eq_word n, fun j => Codec.getLsbD_encode_parity_sum n⟩

/-- The sixteen codewords, written out (R98). -/
theorem Codec.word_table : ∀ n : Nibble, Codec.word n =
    #v[(0x00 : Byte), 0x87, 0x4B, 0xCC, 0x2D, 0xAA, 0x66, 0xE1,
       0x1E, 0x99, 0x55, 0xD2, 0x33, 0xB4, 0x78, 0xFF][n.toNat]'n.isLt := by decide

/-- Settles O34, from the closed form at all sixteen nibbles. -/
theorem encodeTable : Obligations.EncodeTable := by
  unfold Obligations.EncodeTable
  constructor
  · intro s n hs
    rw [← Codec.word_table n, ← Codec.encode_eq_word]
    exact State.performs_encode_rom hs n
  · intro s n w hs h k hk
    obtain rfl := Result.codeword.inj (h.unique (State.performs_encode_rom hs n))
    exact Codec.getLsbD_encode_data n hk

/-! ### The code -/

theorem Codec.encode_xor (a b : Nibble) : Codec.encode Constants.rom.G (a ^^^ b) =
    Codec.encode Constants.rom.G a ^^^ Codec.encode Constants.rom.G b := by
  refine BitVec.eq_of_getLsbD_eq fun p hp => ?_
  rw [BitVec.getLsbD_xor, Codec.getLsbD_encode _ hp, Codec.getLsbD_encode _ hp,
    Codec.getLsbD_encode _ hp, ← xorSum_xor]
  exact xorSum_congr fun k _ => by rw [BitVec.getLsbD_xor, Bool.and_xor_distrib_right]

/-- EXTRACT undoes ENCODE. -/
theorem Codec.encode_injective {a b : Nibble}
    (h : Codec.encode Constants.rom.G a = Codec.encode Constants.rom.G b) : a = b := by
  rw [← Codec.extract_encode a, h, Codec.extract_encode]

theorem Codec.encode_zero : Codec.encode Constants.rom.G 0 = 0 := by
  rw [Codec.encode_eq_word]
  decide

theorem Codec.weight_word : ∀ n : Nibble, n ≠ 0 →
    weight (Codec.word n) = 4 ∨ weight (Codec.word n) = 8 := by decide

theorem Codec.weight_encode {n : Nibble} (h : n ≠ 0) :
    weight (Codec.encode Constants.rom.G n) = 4 ∨ weight (Codec.encode Constants.rom.G n) = 8 := by
  rw [Codec.encode_eq_word]
  exact Codec.weight_word n h

/-- The distance of the code is the least weight of a nonzero codeword. -/
theorem Codec.distance_encode {a b : Nibble} (h : a ≠ b) :
    4 ≤ weight (Codec.encode Constants.rom.G a ^^^ Codec.encode Constants.rom.G b) := by
  have nonzero : a ^^^ b ≠ 0 := fun e => h (BitVec.xor_eq_zero_iff.1 e)
  rw [← Codec.encode_xor]
  have := Codec.weight_encode nonzero
  omega

/-- Settles O35: linearity, with EXTRACT as left inverse, gives injectivity and distance; the weights and the
bit reversals are read off the sixteen codewords. -/
theorem codeProperties : Obligations.CodeProperties := by
  unfold Obligations.CodeProperties
  intro s hs
  refine ⟨Codec.encode Constants.rom.G, State.performs_encode_rom hs, Codec.encode_xor,
    fun a b => Codec.encode_injective, fun a h => ?_, ?_, ?_, fun a b => Codec.distance_encode, ?_,
    by decide⟩
  · exact Codec.weight_encode fun zero => h (zero ▸ Codec.encode_zero)
  · simp only [Codec.encode_eq_word]
    decide
  · simp only [Codec.encode_eq_word]
    decide
  · simp only [Codec.encode_eq_word]
    decide

/-! ### SYNDROME in closed form -/

/-- Column 0 of the syndrome is the index's most significant bit (R101). -/
theorem BitMatrix.getLsbD_toData4 (S : BitMatrix) {i : Nat} (hi : i < 4) :
    S.toData4.getLsbD i = S.cell 0 (3 - i) := by
  have assembled : ∀ a b c d : Bool, ∀ i < 4,
      (BitVec.ofNat 4 (8 * a.toNat + 4 * b.toNat + 2 * c.toNat + d.toNat)).getLsbD i =
        [d, c, b, a].getD i false := by decide
  rw [BitMatrix.toData4, assembled _ _ _ _ i hi]
  interval_cases i <;> rfl

/-- The index of a byte as R100 and R101 write it out. -/
def Codec.indexOf (w : Byte) : Nibble :=
  BitVec.ofNat 4 (8 * (w.getLsbD 1 ^^ w.getLsbD 2 ^^ w.getLsbD 3 ^^ w.getLsbD 4).toNat +
    4 * (w.getLsbD 0 ^^ w.getLsbD 2 ^^ w.getLsbD 3 ^^ w.getLsbD 5).toNat +
    2 * (w.getLsbD 0 ^^ w.getLsbD 1 ^^ w.getLsbD 3 ^^ w.getLsbD 6).toNat +
    (w.getLsbD 0 ^^ w.getLsbD 1 ^^ w.getLsbD 2 ^^ w.getLsbD 7).toNat)

/-- The four columns of the syndrome (R100). -/
theorem Codec.syndrome_columns (w : Byte) :
    (Codec.product (Codec.rowOf 8 w) Constants.rom.HT).cell 0 0 =
      (w.getLsbD 1 ^^ w.getLsbD 2 ^^ w.getLsbD 3 ^^ w.getLsbD 4) ∧
    (Codec.product (Codec.rowOf 8 w) Constants.rom.HT).cell 0 1 =
      (w.getLsbD 0 ^^ w.getLsbD 2 ^^ w.getLsbD 3 ^^ w.getLsbD 5) ∧
    (Codec.product (Codec.rowOf 8 w) Constants.rom.HT).cell 0 2 =
      (w.getLsbD 0 ^^ w.getLsbD 1 ^^ w.getLsbD 3 ^^ w.getLsbD 6) ∧
    (Codec.product (Codec.rowOf 8 w) Constants.rom.HT).cell 0 3 =
      (w.getLsbD 0 ^^ w.getLsbD 1 ^^ w.getLsbD 2 ^^ w.getLsbD 7) := by
  refine ⟨?_, ?_, ?_, ?_⟩
  all_goals
    rw [Codec.cell_syndrome w (by decide)]
    simp [xorSum, htOne]

theorem Codec.syndrome_eq_indexOf (w : Byte) :
    Codec.syndrome Constants.rom.HT w = Codec.indexOf w := by
  obtain ⟨column0, column1, column2, column3⟩ := Codec.syndrome_columns w
  rw [Codec.syndrome, BitMatrix.toData4, column0, column1, column2, column3, Codec.indexOf]

theorem Codec.getLsbD_syndrome (w : Byte) :
    (Codec.syndrome Constants.rom.HT w).getLsbD 3 =
      (w.getLsbD 1 ^^ w.getLsbD 2 ^^ w.getLsbD 3 ^^ w.getLsbD 4) ∧
    (Codec.syndrome Constants.rom.HT w).getLsbD 2 =
      (w.getLsbD 0 ^^ w.getLsbD 2 ^^ w.getLsbD 3 ^^ w.getLsbD 5) ∧
    (Codec.syndrome Constants.rom.HT w).getLsbD 1 =
      (w.getLsbD 0 ^^ w.getLsbD 1 ^^ w.getLsbD 3 ^^ w.getLsbD 6) ∧
    (Codec.syndrome Constants.rom.HT w).getLsbD 0 =
      (w.getLsbD 0 ^^ w.getLsbD 1 ^^ w.getLsbD 2 ^^ w.getLsbD 7) := by
  obtain ⟨column0, column1, column2, column3⟩ := Codec.syndrome_columns w
  have bit := fun i hi =>
    (Codec.product (Codec.rowOf 8 w) Constants.rom.HT).getLsbD_toData4 (i := i) hi
  exact ⟨(bit 3 (by decide)).trans column0, (bit 2 (by decide)).trans column1,
    (bit 1 (by decide)).trans column2, (bit 0 (by decide)).trans column3⟩

theorem Codec.syndrome_xor (a b : Byte) : Codec.syndrome Constants.rom.HT (a ^^^ b) =
    Codec.syndrome Constants.rom.HT a ^^^ Codec.syndrome Constants.rom.HT b := by
  have bit : ∀ (w : Byte) (i : Nat), i < 4 → (Codec.syndrome Constants.rom.HT w).getLsbD i =
      xorSum 8 (fun k => w.getLsbD k && htOne k (3 - i)) := fun w i hi =>
    (BitMatrix.getLsbD_toData4 _ hi).trans (Codec.cell_syndrome w (by omega))
  refine BitVec.eq_of_getLsbD_eq fun i hi => ?_
  rw [BitVec.getLsbD_xor, bit _ i hi, bit a i hi, bit b i hi, ← xorSum_xor]
  exact xorSum_congr fun k _ => by rw [BitVec.getLsbD_xor, Bool.and_xor_distrib_right]

/-- A single bit selects its row of `HT` (10_state.md R15). -/
theorem Codec.syndrome_bitMask (p : Fin 8) :
    Codec.syndrome Constants.rom.HT (bitMask p) = rowIndices.getD p 0 := by
  have rows : ∀ p : Fin 8, Codec.indexOf (bitMask p) = rowIndices.getD p 0 := by decide
  rw [Codec.syndrome_eq_indexOf, rows p]

/-- Settles O36, from the four columns of the syndrome. -/
theorem syndromeResult : Obligations.SyndromeResult := by
  unfold Obligations.SyndromeResult
  refine ⟨fun s w hs => ⟨_, State.performs_syndrome_rom hs w, Codec.getLsbD_syndrome w⟩,
    fun s k hs => ?_, fun s a b x y hs ha hb => ?_⟩
  · rw [← Codec.syndrome_bitMask]
    exact State.performs_syndrome_rom hs _
  · obtain rfl := Result.index.inj (ha.unique (State.performs_syndrome_rom hs a))
    obtain rfl := Result.index.inj (hb.unique (State.performs_syndrome_rom hs b))
    rw [← Codec.syndrome_xor]
    exact State.performs_syndrome_rom hs _

end Sys2Proof.Machine
end

section
/-! DECODE in closed form and what it makes of flipped bits (43_decoder.md R105 to R110). By linearity the
syndrome of a received word is that of its error pattern, so each claim is one about patterns. -/

namespace Sys2Proof.Machine

/-! ### DECODE by the kind of the table's entry -/

section
variable {HT : BitMatrix} {errTab : Vector Entry 16} {w : Byte}

theorem Codec.decode_of_noerr (h : Codec.lookup errTab (Codec.syndrome HT w) = .noerr) :
    Codec.decode HT errTab w = (.ok, Codec.extract w) := by
  rw [Codec.decode_eq, h, Codec.correct_noerr]

theorem Codec.decode_of_uncorr (h : Codec.lookup errTab (Codec.syndrome HT w) = .uncorr) :
    Codec.decode HT errTab w = (.err, Codec.extract w) := by
  rw [Codec.decode_eq, h, Codec.correct_uncorr]

theorem Codec.decode_of_pos {p : Fin 8} (h : Codec.lookup errTab (Codec.syndrome HT w) = .pos p) :
    Codec.decode HT errTab w = (.corrected, Codec.extract (w ^^^ bitMask p)) := by
  rw [Codec.decode_eq, h, Codec.correct_pos]

end

/-! ### The closed form -/

/-- The index as a number (R101). -/
theorem Codec.toNat_syndrome (w : Byte) : (Codec.syndrome Constants.rom.HT w).toNat =
    8 * (w.getLsbD 1 ^^ w.getLsbD 2 ^^ w.getLsbD 3 ^^ w.getLsbD 4).toNat +
    4 * (w.getLsbD 0 ^^ w.getLsbD 2 ^^ w.getLsbD 3 ^^ w.getLsbD 5).toNat +
    2 * (w.getLsbD 0 ^^ w.getLsbD 1 ^^ w.getLsbD 3 ^^ w.getLsbD 6).toNat +
    (w.getLsbD 0 ^^ w.getLsbD 1 ^^ w.getLsbD 2 ^^ w.getLsbD 7).toNat := by
  have small : ∀ a b c d : Bool,
      8 * a.toNat + 4 * b.toNat + 2 * c.toNat + d.toNat < 2 ^ 4 := by decide
  rw [Codec.syndrome_eq_indexOf, Codec.indexOf, BitVec.toNat_ofNat, Nat.mod_eq_of_lt (small _ _ _ _)]

theorem Codec.lookup_eq_getD (errTab : Vector Entry 16) (idx : Nibble) :
    Codec.lookup errTab idx = errTab.toList.getD idx.toNat .uncorr := by
  rw [Codec.lookup, List.getD_eq_getElem _ _ (by simpa using idx.isLt)]
  exact (Vector.getElem_toList _).symm

/-- CORRECT flips the bit that the entry names, and otherwise leaves the word (R103). -/
theorem Codec.correct_word (e : Entry) (w : Byte) :
    (∃ p : Fin 8, e = .pos p ∧ (Codec.correct e w).2 = w ^^^ bitMask p) ∨
      ((∀ p : Fin 8, e ≠ .pos p) ∧ (Codec.correct e w).2 = w) := by
  cases e with
  | noerr => exact .inr ⟨nofun, by rw [Codec.correct_noerr]⟩
  | uncorr => exact .inr ⟨nofun, by rw [Codec.correct_uncorr]⟩
  | pos p => exact .inl ⟨p, rfl, by rw [Codec.correct_pos]⟩

/-- The status tells the kind of the entry (R103). -/
theorem Status.ofEntry_iff (e : Entry) :
    (Status.ofEntry e = .ok ↔ e = .noerr) ∧ (Status.ofEntry e = .corrected ↔ ∃ p, e = .pos p) ∧
      (Status.ofEntry e = .err ↔ e = .uncorr) := by
  cases e <;> simp [Status.ofEntry]

/-- DECODE's nibble on `dout`, zero-extended (decision D8). -/
theorem setWidth_eq_zero_append : ∀ n : Nibble, n.setWidth 8 = 0#4 ++ n := by decide

/-- Settles O41: the index, the entry, the corrected word, the status and the nibble are those of the parts. -/
theorem decodeClosedForm : Obligations.DecodeClosedForm := by
  unfold Obligations.DecodeClosedForm
  intro s w hs
  have performs := State.performs_decode_rom hs w
  rw [Codec.decode_eq] at performs
  obtain ⟨t, run, only, result, dout, status⟩ := performs
  obtain ⟨ok, corrected, err⟩ := Status.ofEntry_iff
    (Codec.lookup Constants.rom.errTab (Codec.syndrome Constants.rom.HT w))
  refine ⟨t, _, _, _, _, _, run, only, result, dout.trans (congrArg some (setWidth_eq_zero_append _)),
    status, Codec.toNat_syndrome w, ?_, Codec.correct_word _ w, ok, corrected, err, ?_⟩
  · rw [hs, Codec.lookup_eq_getD]
  · exact ⟨Codec.getLsbD_extract _ (by decide), Codec.getLsbD_extract _ (by decide),
      Codec.getLsbD_extract _ (by decide), Codec.getLsbD_extract _ (by decide)⟩

/-! ### Error patterns -/

/-- Codewords have syndrome 0, so the syndrome of a received word is that of its error pattern. -/
theorem Codec.syndrome_encode_xor (v : Nibble) (E : Byte) :
    Codec.syndrome Constants.rom.HT (Codec.encode Constants.rom.G v ^^^ E) =
      Codec.syndrome Constants.rom.HT E := by
  rw [Codec.syndrome_xor, Codec.syndrome_encode]
  exact BitVec.zero_xor

theorem Codec.extract_xor (a b : Byte) :
    Codec.extract (a ^^^ b) = Codec.extract a ^^^ Codec.extract b :=
  BitVec.eq_of_getLsbD_eq fun i hi => by
    rw [BitVec.getLsbD_xor, Codec.getLsbD_extract _ hi, Codec.getLsbD_extract _ hi,
      Codec.getLsbD_extract _ hi, BitVec.getLsbD_xor]

theorem Codec.extract_encode_xor (v : Nibble) (E : Byte) :
    Codec.extract (Codec.encode Constants.rom.G v ^^^ E) = v ^^^ Codec.extract E := by
  rw [Codec.extract_xor, Codec.extract_encode]

/-- Settles O43: the pattern is one bit, whose syndrome is its row of `HT`. -/
theorem singleBitErrorsAreCorrected : Obligations.SingleBitErrorsAreCorrected := by
  unfold Obligations.SingleBitErrorsAreCorrected
  intro s v p hs
  have index : Codec.syndrome Constants.rom.HT (Codec.encode Constants.rom.G v ^^^ bitMask p) =
      rowIndices.getD p 0 := (Codec.syndrome_encode_xor v _).trans (Codec.syndrome_bitMask p)
  have back : Codec.encode Constants.rom.G v ^^^ bitMask p ^^^ bitMask p =
      Codec.encode Constants.rom.G v := by rw [BitVec.xor_assoc, BitVec.xor_self, BitVec.xor_zero]
  refine ⟨_, _, State.performs_encode_rom hs v, State.performs_syndrome_rom hs _, index, ?_, ?_, ?_⟩
  · have performs := State.performs_lookup_rom hs (rowIndices.getD p 0)
    rw [Codec.lookup_row] at performs
    exact index ▸ performs
  · have performs := s.performs_correct (.pos p) (Codec.encode Constants.rom.G v ^^^ bitMask p)
    rw [Codec.correct_pos, back] at performs
    exact performs
  · have performs := State.performs_decode_rom hs (Codec.encode Constants.rom.G v ^^^ bitMask p)
    rw [Codec.decode_of_pos (index ▸ Codec.lookup_row p), back, Codec.extract_encode] at performs
    exact performs

/-! ### DECODE by the index -/

/-- The sixteen indices: 0, the uncorrectable ones, and the rows of `HT` (10_state.md R15, R16). -/
theorem index_cases : ∀ idx : Nibble,
    idx = 0 ∨ idx ∈ uncorrectableIndices ∨ ∃ p : Fin 8, rowIndices.getD p 0 = idx := by decide

section
variable {w : Byte}

theorem Codec.decode_of_zero (h : Codec.syndrome Constants.rom.HT w = 0) :
    Codec.decode Constants.rom.HT Constants.rom.errTab w = (.ok, Codec.extract w) :=
  Codec.decode_of_noerr (h ▸ Codec.lookup_zero)

theorem Codec.decode_of_uncorrectable
    (h : Codec.syndrome Constants.rom.HT w ∈ uncorrectableIndices) :
    Codec.decode Constants.rom.HT Constants.rom.errTab w = (.err, Codec.extract w) :=
  Codec.decode_of_uncorr (Codec.lookup_uncorrectable _ h)

theorem Codec.decode_of_row {p : Fin 8}
    (h : rowIndices.getD p 0 = Codec.syndrome Constants.rom.HT w) :
    Codec.decode Constants.rom.HT Constants.rom.errTab w =
      (.corrected, Codec.extract (w ^^^ bitMask p)) :=
  Codec.decode_of_pos (h ▸ Codec.lookup_row p)

end

/-! ### Patterns by weight -/

theorem pattern_of_weight_one : ∀ E : Byte, weight E = 1 → ∃ p : Fin 8, E = bitMask p := by decide

theorem Codec.syndrome_of_weight_two {E : Byte} (h : weight E = 2) :
    Codec.syndrome Constants.rom.HT E ∈ uncorrectableIndices := by
  have patterns : ∀ E : Byte, weight E = 2 → Codec.indexOf E ∈ uncorrectableIndices := by decide
  rw [Codec.syndrome_eq_indexOf]
  exact patterns E h

/-- Three flipped bits look like a fourth. -/
theorem Codec.syndrome_of_weight_three {E : Byte} (h : weight E = 3) :
    ∃ p : Fin 8, rowIndices.getD p 0 = Codec.syndrome Constants.rom.HT E ∧ E.getLsbD p = false := by
  have patterns : ∀ E : Byte, weight E = 3 →
      ∃ p : Fin 8, rowIndices.getD p 0 = Codec.indexOf E ∧ E.getLsbD p = false := by decide
  rw [Codec.syndrome_eq_indexOf]
  exact patterns E h

theorem Codec.syndrome_of_weight_four {E : Byte} (h : weight E = 4) :
    Codec.syndrome Constants.rom.HT E = 0 ∨
      Codec.syndrome Constants.rom.HT E ∈ uncorrectableIndices := by
  have patterns : ∀ E : Byte, weight E = 4 →
      Codec.indexOf E = 0 ∨ Codec.indexOf E ∈ uncorrectableIndices := by decide
  rw [Codec.syndrome_eq_indexOf]
  exact patterns E h

/-- The nibble read from a pattern is 0 exactly when its high half is. -/
theorem Codec.extract_eq_zero_iff (E : Byte) : Codec.extract E = 0 ↔ E &&& 0xF0 = 0 := by
  have patterns : ∀ E : Byte, (bitrev8 E &&& 0x0F).setWidth 4 = 0#4 ↔ E &&& 0xF0 = 0 := by decide
  rw [Codec.extract_eq]
  exact patterns E

/-- A word of syndrome 0 is a codeword: it differs from the codeword of its nibble by a pattern of syndrome 0
in the low half only, which is no pattern at all. -/
theorem Codec.encode_extract {w : Byte} (h : Codec.syndrome Constants.rom.HT w = 0) :
    Codec.encode Constants.rom.G (Codec.extract w) = w := by
  have low : ∀ E : Byte, E &&& 0xF0 = 0 → Codec.indexOf E = 0 → E = 0 := by decide
  refine BitVec.xor_eq_zero_iff.1 (low _ ?_ ?_)
  · rw [← Codec.extract_eq_zero_iff, Codec.extract_encode_xor]
    exact BitVec.xor_self
  · rw [← Codec.syndrome_eq_indexOf, Codec.syndrome_encode_xor, h]

/-! ### DECODE of a codeword with flipped bits -/

theorem rowIndices_getD_mem : ∀ p : Fin 8, rowIndices.getD p 0 ∈ rowIndices := by decide

section
variable (v : Nibble) {E : Byte}

theorem Codec.decode_flips_row {p : Fin 8}
    (h : rowIndices.getD p 0 = Codec.syndrome Constants.rom.HT E) :
    Codec.decode Constants.rom.HT Constants.rom.errTab (Codec.encode Constants.rom.G v ^^^ E) =
      (.corrected, Codec.extract (Codec.encode Constants.rom.G v ^^^ E ^^^ bitMask p)) :=
  Codec.decode_of_row (h.trans (Codec.syndrome_encode_xor v E).symm)

theorem Codec.decode_flips_uncorrectable (h : Codec.syndrome Constants.rom.HT E ∈ uncorrectableIndices) :
    Codec.decode Constants.rom.HT Constants.rom.errTab (Codec.encode Constants.rom.G v ^^^ E) =
      (.err, v ^^^ Codec.extract E) := by
  rw [Codec.decode_of_uncorrectable (Codec.syndrome_encode_xor v E ▸ h), Codec.extract_encode_xor]

/-- One flipped bit is corrected. -/
theorem Codec.decode_flips_one (h : weight E = 1) :
    Codec.syndrome Constants.rom.HT (Codec.encode Constants.rom.G v ^^^ E) ∈ rowIndices ∧
    Codec.decode Constants.rom.HT Constants.rom.errTab (Codec.encode Constants.rom.G v ^^^ E) =
      (.corrected, v) := by
  obtain ⟨p, rfl⟩ := pattern_of_weight_one E h
  constructor
  · rw [Codec.syndrome_encode_xor, Codec.syndrome_bitMask]
    exact rowIndices_getD_mem p
  · rw [Codec.decode_flips_row v (Codec.syndrome_bitMask p).symm, BitVec.xor_assoc, BitVec.xor_self,
      BitVec.xor_zero, Codec.extract_encode]

/-- Three flipped bits are "corrected" to another codeword, by flipping a fourth. -/
theorem Codec.decode_flips_three (h : weight E = 3) : ∃ (p : Fin 8) (x : Nibble),
    Codec.syndrome Constants.rom.HT (Codec.encode Constants.rom.G v ^^^ E) ∈ rowIndices ∧
    Codec.decode Constants.rom.HT Constants.rom.errTab (Codec.encode Constants.rom.G v ^^^ E) =
      (.corrected, x) ∧
    x ≠ v ∧ Codec.encode Constants.rom.G x = Codec.encode Constants.rom.G v ^^^ E ^^^ bitMask p ∧
    E.getLsbD p = false := by
  obtain ⟨p, row, clear⟩ := Codec.syndrome_of_weight_three h
  have codeword := Codec.encode_extract
    (w := Codec.encode Constants.rom.G v ^^^ E ^^^ bitMask p) (by
      rw [BitVec.xor_assoc, Codec.syndrome_encode_xor, Codec.syndrome_xor, Codec.syndrome_bitMask, row]
      exact BitVec.xor_self)
  refine ⟨p, _, ?_, Codec.decode_flips_row v row, fun same => ?_, codeword, clear⟩
  · rw [Codec.syndrome_encode_xor, ← row]
    exact rowIndices_getD_mem p
  · rw [same, BitVec.xor_assoc] at codeword
    have none : E ^^^ bitMask p = 0 := by
      rw [← BitVec.xor_right_inj (Codec.encode Constants.rom.G v), ← codeword]
      exact BitVec.xor_zero.symm
    rw [BitVec.xor_eq_zero_iff.1 none, getLsbD_bitMask p.isLt] at clear
    simp at clear

/-- Flips that make a codeword are not seen. -/
theorem Codec.decode_flips_codeword (x : Nibble) :
    Codec.syndrome Constants.rom.HT
      (Codec.encode Constants.rom.G v ^^^ Codec.encode Constants.rom.G x) = 0 ∧
    Codec.decode Constants.rom.HT Constants.rom.errTab
      (Codec.encode Constants.rom.G v ^^^ Codec.encode Constants.rom.G x) = (.ok, v ^^^ x) := by
  rw [← Codec.encode_xor]
  exact ⟨Codec.syndrome_encode _, Codec.decode_encode _⟩

end

/-! ### How many inputs give each status -/

/-- A count over consecutive blocks of sixteen that all have `c`. -/
theorem countP_range_blocks {p : Nat → Bool} {c m : Nat}
    (h : ∀ b < m, (List.range 16).countP (fun l => p (16 * b + l)) = c) :
    (List.range (16 * m)).countP p = c * m := by
  induction m with
  | zero => rfl
  | succ m ih =>
    rw [Nat.mul_succ, List.range_add, List.countP_append, List.countP_map,
      ih fun b hb => h b (by omega), Nat.mul_succ]
    exact congrArg _ (h m (by omega))

/-- DECODE's status, from the index in closed form. -/
def Codec.statusOf (w : Byte) : Status :=
  Status.ofEntry (Codec.lookup Constants.rom.errTab (Codec.indexOf w))

theorem Codec.status_decode (w : Byte) :
    (Codec.decode Constants.rom.HT Constants.rom.errTab w).1 = Codec.statusOf w := by
  rw [Codec.statusOf, ← Codec.syndrome_eq_indexOf]
  rfl

/-- Of the sixteen bytes with one high nibble one is a codeword, eight are one flip from one, and seven are not. -/
theorem Codec.statusOf_blocks : ∀ b < 16,
    (List.range 16).countP (fun l => Codec.statusOf (BitVec.ofNat 8 (16 * b + l)) == .ok) = 1 ∧
    (List.range 16).countP (fun l => Codec.statusOf (BitVec.ofNat 8 (16 * b + l)) == .corrected) = 8 ∧
    (List.range 16).countP (fun l => Codec.statusOf (BitVec.ofNat 8 (16 * b + l)) == .err) = 7 := by
  decide

theorem Codec.statusOf_counts :
    (List.range 256).countP (fun k => Codec.statusOf (BitVec.ofNat 8 k) == .ok) = 16 ∧
    (List.range 256).countP (fun k => Codec.statusOf (BitVec.ofNat 8 k) == .corrected) = 128 ∧
    (List.range 256).countP (fun k => Codec.statusOf (BitVec.ofNat 8 k) == .err) = 112 := by
  refine ⟨countP_range_blocks (m := 16) (c := 1) fun b hb => ?_,
    countP_range_blocks (m := 16) (c := 8) fun b hb => ?_,
    countP_range_blocks (m := 16) (c := 7) fun b hb => ?_⟩
  all_goals obtain ⟨ok, corrected, err⟩ := Codec.statusOf_blocks b hb
  · exact ok
  · exact corrected
  · exact err

/-! ### The table of R109 -/

/-- Settles O44: the syndrome of a received word is that of its error pattern, whose weight tells its kind. -/
theorem detectionByFlippedBits : Obligations.DetectionByFlippedBits := by
  unfold Obligations.DetectionByFlippedBits
  intro s hs
  refine ⟨Codec.syndrome Constants.rom.HT,
    fun w => (Codec.decode Constants.rom.HT Constants.rom.errTab w).1,
    fun w => (Codec.decode Constants.rom.HT Constants.rom.errTab w).2, Codec.encode Constants.rom.G,
    State.performs_syndrome_rom hs, State.performs_decode_rom hs, State.performs_encode_rom hs, ?_⟩
  beta_reduce
  refine ⟨fun w => ⟨fun h => ?_, fun h => ?_, fun correctable nonzero => ?_⟩, fun v => ?_,
    fun v E h => ?_, fun v E h => ?_, fun v E h => ?_, fun v E h => ⟨?_, fun other => ?_⟩, ?_⟩
  · rw [Codec.decode_of_uncorrectable h]
  · rw [Codec.decode_of_zero h]
  · obtain zero | uncorrectable | ⟨p, row⟩ := index_cases (Codec.syndrome Constants.rom.HT w)
    · exact absurd zero nonzero
    · exact absurd uncorrectable correctable
    · rw [Codec.decode_of_row row]
      refine ⟨rfl, p, row, ?_, s.performs_extract _⟩
      rw [← row, ← Codec.lookup_row]
      exact State.performs_lookup_rom hs _
  · rw [Codec.decode_encode]
    exact ⟨Codec.syndrome_encode v, rfl, rfl⟩
  · obtain ⟨row, decode⟩ := Codec.decode_flips_one v h
    rw [decode]
    exact ⟨row, rfl, rfl⟩
  · have uncorrectable := Codec.syndrome_of_weight_two h
    rw [Codec.decode_flips_uncorrectable v uncorrectable, Codec.syndrome_encode_xor, xor_left_eq_self_iff,
      Codec.extract_eq_zero_iff, ← Codec.extract_encode_xor]
    exact ⟨uncorrectable, rfl, s.performs_extract _, Iff.rfl⟩
  · obtain ⟨p, x, row, decode, wrong, codeword, clear⟩ := Codec.decode_flips_three v h
    rw [decode]
    exact ⟨row, rfl, wrong, p, codeword, clear⟩
  · rintro ⟨x, rfl⟩
    obtain ⟨zero, decode⟩ := Codec.decode_flips_codeword v x
    rw [decode]
    refine ⟨zero, rfl, fun same => ?_⟩
    rw [xor_left_eq_self_iff.1 same, Codec.encode_zero] at h
    cases h
  · have uncorrectable := (Codec.syndrome_of_weight_four h).resolve_left
      fun zero => other _ (Codec.encode_extract zero)
    rw [Codec.decode_flips_uncorrectable v uncorrectable, Codec.syndrome_encode_xor, xor_left_eq_self_iff,
      Codec.extract_eq_zero_iff]
    exact ⟨uncorrectable, rfl, Iff.rfl⟩
  · simp only [Codec.status_decode]
    exact Codec.statusOf_counts

/-! ### The nibble on `ERR` -/

/-- DECODE reports `ERR` only for an uncorrectable entry, and then reads the word as received. -/
theorem Codec.extract_of_decode_err {HT : BitMatrix} {errTab : Vector Entry 16} {w : Byte} {n : Nibble}
    (h : Codec.decode HT errTab w = (.err, n)) : Codec.extract w = n := by
  cases he : Codec.lookup errTab (Codec.syndrome HT w) with
  | noerr => cases (Codec.decode_of_noerr he).symm.trans h
  | uncorr => cases (Codec.decode_of_uncorr he).symm.trans h; rfl
  | pos p => cases (Codec.decode_of_pos he).symm.trans h

/-- The two worked examples of R110. -/
theorem Codec.err_examples : Codec.indexOf 0xD1 = 12 ∧ (bitrev8 0xD1 &&& 0x0F).setWidth 4 = 0xB#4 ∧
    Codec.indexOf 0x12 = 3 ∧ (bitrev8 0x12 &&& 0x0F).setWidth 4 = 0x8#4 := by decide

/-- Settles O45: `ERR` leaves the word as it was received. -/
theorem nibbleOnErrIsAsReceived : Obligations.NibbleOnErrIsAsReceived := by
  unfold Obligations.NibbleOnErrIsAsReceived
  intro s hs
  obtain ⟨index1, nibble1, index2, nibble2⟩ := Codec.err_examples
  rw [← Codec.syndrome_eq_indexOf] at index1 index2
  rw [← Codec.extract_eq] at nibble1 nibble2
  have uncorrectable : ∀ idx ∈ ([12, 3] : List Nibble), idx ∈ uncorrectableIndices := by decide
  refine ⟨fun w n h => ?_, index1 ▸ State.performs_syndrome_rom hs 0xD1, ?_, ?_,
    index2 ▸ State.performs_syndrome_rom hs 0x12, ?_⟩
  · obtain ⟨status, nibble⟩ := Result.decoded.inj (h.unique (State.performs_decode_rom hs w))
    obtain rfl := Codec.extract_of_decode_err (Prod.ext status.symm nibble.symm)
    exact ⟨s.performs_extract w, Codec.getLsbD_extract w (by decide), Codec.getLsbD_extract w (by decide),
      Codec.getLsbD_extract w (by decide), Codec.getLsbD_extract w (by decide)⟩
  · have performs := State.performs_lookup_rom hs 12
    rwa [Codec.lookup_uncorrectable _ (uncorrectable 12 (by decide))] at performs
  · have performs := State.performs_decode_rom hs 0xD1
    rwa [Codec.decode_of_uncorrectable (index1 ▸ uncorrectable 12 (by decide)), nibble1] at performs
  · have performs := State.performs_decode_rom hs 0x12
    rwa [Codec.decode_of_uncorrectable (index2 ▸ uncorrectable 3 (by decide)), nibble2] at performs

end Sys2Proof.Machine
end

section
/-! The block at its ports, and the host's streams over it (10_state.md R26; 44_host_stream.md R116 to R119). -/

namespace Sys2Proof.Machine

/-! ### One operation at the ports -/

theorem step_port_encode (s : State) (din : Byte) : step (s.present (.port 0x20 din)) =
    .next (s.deliver (.codeword (Codec.encode s.consts.G (immNibble din)))) :=
  step_present (decodePort_encode din)

theorem step_port_decode (s : State) (din : Byte) : step (s.present (.port 0x21 din)) =
    .next (s.deliver (.decoded (Codec.decode s.consts.HT s.consts.errTab din).1
      (Codec.decode s.consts.HT s.consts.errTab din).2)) :=
  step_present (decodePort_decode din)

theorem portFunction_encode (c : Constants) (din : Byte) :
    portFunction c 0x20 din = some (Codec.encode c.G (immNibble din), Status.ok.code) := rfl

theorem portFunction_decode (c : Constants) (din : Byte) : portFunction c 0x21 din =
    some ((Codec.decode c.HT c.errTab din).2.setWidth 8, (Codec.decode c.HT c.errTab din).1.code) := rfl

theorem portFunction_other (c : Constants) {sel : Byte} (hE : sel ≠ 0x20) (hD : sel ≠ 0x21)
    (din : Byte) : portFunction c sel din = none := by
  rw [portFunction, if_neg hE, if_neg hD]

/-- Settles O48: at each of the two selectors the step delivers what the port function says; at every other one
both have nothing. -/
theorem portsAreAFunctionOfTheInputs : Obligations.PortsAreAFunctionOfTheInputs := by
  unfold Obligations.PortsAreAFunctionOfTheInputs
  intro s sel din
  by_cases hE : sel = 0x20
  · subst hE
    rw [portFunction_encode]
    refine ⟨?_, nofun, by simp⟩
    rintro d p ⟨⟩
    exact ⟨_, step_port_encode s din, rfl, rfl, s.onlyDelivers_deliver _⟩
  · by_cases hD : sel = 0x21
    · subst hD
      rw [portFunction_decode]
      refine ⟨?_, nofun, by simp⟩
      rintro d p ⟨⟩
      exact ⟨_, step_port_decode s din, rfl, rfl, s.onlyDelivers_deliver _⟩
    · rw [portFunction_other _ hE hD]
      exact ⟨nofun, fun _ => step_present_rejected (decodePort_other hE hD din), iff_of_true rfl ⟨hE, hD⟩⟩

/-- ENCODE as the host uses it. -/
theorem State.usePort_encode (s : State) (n : Nibble) : s.usePort 0x20 (n.setWidth 8) =
    some { dout := Codec.encode s.consts.G n, status := Status.ok.code,
           after := s.deliver (.codeword (Codec.encode s.consts.G n)) } := by
  rw [State.usePort, step_port_encode, immNibble_setWidth]
  rfl

/-- DECODE as the host uses it. -/
theorem State.usePort_decode (s : State) (w : Byte) : s.usePort 0x21 w =
    some { dout := (Codec.decode s.consts.HT s.consts.errTab w).2.setWidth 8,
           status := (Codec.decode s.consts.HT s.consts.errTab w).1.code,
           after := s.deliver (.decoded (Codec.decode s.consts.HT s.consts.errTab w).1
             (Codec.decode s.consts.HT s.consts.errTab w).2) } := by
  rw [State.usePort, step_port_decode]
  rfl

theorem OnlyDelivers.trans {s t u : State} (h : OnlyDelivers s t) (h' : OnlyDelivers t u) :
    OnlyDelivers s u :=
  ⟨h'.consts.trans h.consts, h'.vectors.trans h.vectors, h'.matrices.trans h.matrices,
    h'.pending.trans h.pending, h'.config.trans h.config, h'.draws.trans h.draws⟩

theorem OnlyDelivers.refl (s : State) : OnlyDelivers s s := ⟨rfl, rfl, rfl, rfl, rfl, rfl⟩

/-- Of two deliveries the second stands. -/
theorem State.deliver_deliver (s : State) (r r' : Result) : (s.deliver r).deliver r' = s.deliver r' := rfl

/-! ### ENCSTREAM -/

/-- The two codewords of a byte, the low nibble's first (R116). -/
def Codec.encodeByte (x : Byte) : List Byte :=
  [Codec.encode Constants.rom.G (x.extractLsb' 0 4), Codec.encode Constants.rom.G (x.extractLsb' 4 4)]

theorem encStream_cons {s : State} (hs : s.consts = Constants.rom) (x : Byte) (xs : List Byte) :
    ∃ r : Result, encStream s (x :: xs) = (encStream (s.deliver r) xs).map fun e =>
      { e with bytes := Codec.encodeByte x ++ e.bytes } := by
  refine ⟨.codeword (Codec.encode Constants.rom.G (x.extractLsb' 4 4)), ?_⟩
  simp only [encStream, State.usePort_encode, State.deliver_consts, State.deliver_deliver, hs]
  cases encStream (s.deliver _) xs <;> rfl

/-- ENCSTREAM emits the codewords of each byte in turn and only delivers. -/
theorem encStream_eq {s : State} (hs : s.consts = Constants.rom) (xs : List Byte) :
    ∃ t, OnlyDelivers s t ∧ encStream s xs = some { bytes := xs.flatMap Codec.encodeByte, after := t } := by
  induction xs generalizing s with
  | nil => exact ⟨s, .refl s, rfl⟩
  | cons x xs ih =>
    obtain ⟨r, step⟩ := encStream_cons hs x xs
    obtain ⟨t, only, rest⟩ := ih (s := s.deliver r) hs
    exact ⟨t, (s.onlyDelivers_deliver r).trans only, by rw [step, rest]; rfl⟩

/-- Settles O58, by induction on the bytes. -/
theorem encodeStreamResult : Obligations.EncodeStreamResult := by
  unfold Obligations.EncodeStreamResult
  intro s hs
  refine ⟨fun xs => ?_, ?_, rfl⟩
  · obtain ⟨t, only, run⟩ := encStream_eq hs xs
    refine ⟨_, run, only, rfl, ?_⟩
    change (xs.flatMap Codec.encodeByte).length = 2 * xs.length
    simp [List.length_flatMap, Codec.encodeByte, Nat.mul_comm]
  · obtain ⟨t, -, run⟩ := encStream_eq hs [0xAB]
    rw [run]
    simp only [Option.map_some, List.flatMap_cons, List.flatMap_nil, Codec.encodeByte, Codec.encode_eq_word]
    decide

/-! ### DECSTREAM -/

theorem Status.ofCode_code (st : Status) : Status.ofCode st.code = some st := by
  cases st <;> rfl

/-- The host's repacking of two zero-extended nibbles joins them (R117). -/
theorem repack_setWidth : ∀ lo hi : Nibble, repack (lo.setWidth 8) (hi.setWidth 8) = hi ++ lo := by decide

theorem Counters.afterPair_total (k : Counters) (st0 st1 : Status) :
    (k.afterPair st0 st1).total = k.total + Config.hostTotalReading.perPair := by
  simp [Counters.afterPair]

/-- One pair of DECSTREAM (R117), in every state. -/
theorem decStream_pair (s : State) (k : Counters) {w0 w1 : Byte} (ws : List Byte) {st0 st1 : Status}
    {lo hi : Nibble} (h0 : Codec.decode s.consts.HT s.consts.errTab w0 = (st0, lo))
    (h1 : Codec.decode s.consts.HT s.consts.errTab w1 = (st1, hi)) :
    decStream s k (w0 :: w1 :: ws) =
      (decStream (s.deliver (.decoded st1 hi)) (k.afterPair st0 st1) ws).map fun d =>
        { d with bytes := (hi ++ lo) :: d.bytes } := by
  simp only [decStream, State.usePort_decode, State.deliver_consts, h0, h1, Status.ofCode_code,
    State.deliver_deliver, repack_setWidth]
  cases decStream (s.deliver _) (k.afterPair st0 st1) ws <;> rfl

/-- DECSTREAM takes any bytes in pairs, whatever the statuses, and only delivers (R117, R118, R122). -/
theorem decStream_completes : ∀ (ws : List Byte) (s : State) (k : Counters),
    ∃ d, decStream s k ws = some d ∧ OnlyDelivers s d.after ∧ d.bytes.length = ws.length / 2 ∧
      d.counters.total = k.total + ws.length / 2 * Config.hostTotalReading.perPair +
        ws.length % 2 * Config.hostTotalReading.perTrailing
  | [], s, k => ⟨_, rfl, .refl s, rfl, by simp⟩
  | [w], s, k => ⟨_, rfl, .refl s, by simp, by simp⟩
  | w0 :: w1 :: ws, s, k => by
    obtain ⟨d, rest, only, length, total⟩ := decStream_completes ws
      (s.deliver (.decoded (Codec.decode s.consts.HT s.consts.errTab w1).1
        (Codec.decode s.consts.HT s.consts.errTab w1).2))
      (k.afterPair (Codec.decode s.consts.HT s.consts.errTab w0).1
        (Codec.decode s.consts.HT s.consts.errTab w1).1)
    have pairs : (w0 :: w1 :: ws).length / 2 = ws.length / 2 + 1 := Nat.add_div_right _ Nat.two_pos
    have trailing : (w0 :: w1 :: ws).length % 2 = ws.length % 2 := Nat.add_mod_right ws.length 2
    refine ⟨_, (decStream_pair s k ws rfl rfl).trans (congrArg _ rest),
      (s.onlyDelivers_deliver _).trans only, (congrArg (· + 1) length).trans pairs.symm, total.trans ?_⟩
    rw [pairs, trailing, Counters.afterPair_total, Nat.succ_mul]
    omega

/-- What was delivered before does not matter to DECSTREAM's output. -/
theorem OnlyDelivers.decStream_eq {s t : State} (h : OnlyDelivers s t) (k : Counters) :
    ∀ ws : List Byte, (decStream t k ws).map (fun d => (d.bytes, d.counters)) =
      (decStream s k ws).map (fun d => (d.bytes, d.counters))
  | [] => rfl
  | [w] => rfl
  | w0 :: w1 :: ws => by
    rw [decStream_pair t k ws rfl rfl, decStream_pair s k ws rfl rfl, h.deliver_eq, h.consts]

/-- A pair of DECSTREAM puts its byte before those of the rest, which sees only the counts. -/
theorem decStream_pair_output {s : State} (k : Counters) {w0 w1 : Byte} (ws : List Byte) {st0 st1 : Status}
    {lo hi : Nibble} (h0 : Codec.decode s.consts.HT s.consts.errTab w0 = (st0, lo))
    (h1 : Codec.decode s.consts.HT s.consts.errTab w1 = (st1, hi)) :
    (decStream s k (w0 :: w1 :: ws)).map (fun d => (d.bytes, d.counters)) =
      (decStream s (k.afterPair st0 st1) ws).map (fun d => ((hi ++ lo) :: d.bytes, d.counters)) := by
  have rest := congrArg (Option.map fun d => ((hi ++ lo) :: d.1, d.2))
    ((s.onlyDelivers_deliver (.decoded st1 hi)).decStream_eq (k.afterPair st0 st1) ws)
  rw [Option.map_map, Option.map_map] at rest
  rw [decStream_pair s k ws h0 h1, Option.map_map]
  exact rest

theorem Codec.decode_of_performs {s : State} {w : Byte} {st : Status} {n : Nibble}
    (h : s.Performs (.decode w) (.decoded st n)) :
    Codec.decode s.consts.HT s.consts.errTab w = (st, n) := by
  obtain ⟨status, nibble⟩ := Result.decoded.inj ((s.performs_decode w).unique h)
  exact Prod.ext status nibble

/-- The codewords of `B` and `A`, and the first with its last bit flipped. -/
theorem Codec.decode_examples :
    Codec.decode Constants.rom.HT Constants.rom.errTab 0xD2 = (.ok, 0xB) ∧
    Codec.decode Constants.rom.HT Constants.rom.errTab 0x55 = (.ok, 0xA) ∧
    Codec.decode Constants.rom.HT Constants.rom.errTab 0xD3 = (.corrected, 0xB) := by
  have wordB : Codec.encode Constants.rom.G 0xB = 0xD2 := (Codec.encode_eq_word _).trans (by decide)
  have wordA : Codec.encode Constants.rom.G 0xA = 0x55 := (Codec.encode_eq_word _).trans (by decide)
  refine ⟨wordB ▸ Codec.decode_encode 0xB, wordA ▸ Codec.decode_encode 0xA, ?_⟩
  have flipped := (Codec.decode_flips_one 0xB (E := 0x01) (by decide)).2
  rw [wordB] at flipped
  exact flipped

/-- Settles O59: DECSTREAM by pairs, and the worked examples from what DECODE makes of their bytes. -/
theorem decodeStreamResult : Obligations.DecodeStreamResult := by
  unfold Obligations.DecodeStreamResult
  intro s k hs
  obtain ⟨decodeD2, decode55, decodeD3⟩ := Codec.decode_examples
  rw [← hs] at decodeD2 decode55 decodeD3
  refine ⟨fun ws => decStream_completes ws s k, fun w0 w1 ws st0 st1 lo hi h0 h1 =>
    decStream_pair_output k ws (Codec.decode_of_performs h0) (Codec.decode_of_performs h1),
    fun w => rfl, ?_, ?_⟩
  · rw [decStream_pair s k [] decodeD2 decode55]
    rfl
  · rw [decStream_pair s k [] decodeD3 decode55]
    rfl

/-! ### The round trip -/

/-- The status DECODE reports for a codeword with at most one bit flipped (43_decoder.md R107, R108). -/
def statusOfFlips (E : Byte) : Status := if weight E = 1 then .corrected else .ok

theorem Codec.decode_flips_le_one (v : Nibble) {E : Byte} (h : weight E ≤ 1) :
    Codec.decode Constants.rom.HT Constants.rom.errTab (Codec.encode Constants.rom.G v ^^^ E) =
      (statusOfFlips E, v) := by
  by_cases one : weight E = 1
  · rw [statusOfFlips, if_pos one, (Codec.decode_flips_one v one).2]
  · have zero : ∀ E : Byte, weight E = 0 → E = 0#8 := by decide
    rw [statusOfFlips, if_neg one, zero E (by omega), BitVec.xor_zero, Codec.decode_encode]

/-- A byte is its two nibbles. -/
theorem append_nibbles (x : Byte) : x.extractLsb' 4 4 ++ x.extractLsb' 0 4 = x := by
  rw [BitVec.extractLsb'_append_extractLsb'_eq_extractLsb' (show 4 = 0 + 4 from rfl)]
  exact BitVec.extractLsb'_eq_self

/-- The counts after a pair of which each was damaged in at most one bit. -/
theorem Counters.afterPair_flips (k : Counters) (E0 E1 : Byte) :
    k.afterPair (statusOfFlips E0) (statusOfFlips E1) =
      { total := k.total + Config.hostTotalReading.perPair
        uncorrectable := k.uncorrectable
        corrected := k.corrected + [E0, E1].countP (fun e => weight e == 1) } := by
  by_cases one0 : weight E0 = 1 <;> by_cases one1 : weight E1 = 1 <;>
    simp [statusOfFlips, Counters.afterPair, Counters.countPair, Counters.count, one0, one1]

/-- Decoding the codewords of some bytes, each with at most one bit flipped. -/
theorem decStream_flipped {s : State} (hs : s.consts = Constants.rom) (k : Counters) (xs es : List Byte)
    (length : es.length = 2 * xs.length) (few : ∀ e ∈ es, weight e ≤ 1) :
    ∃ d, decStream s k (List.zipWith (· ^^^ ·) (xs.flatMap Codec.encodeByte) es) = some d ∧
      d.bytes = xs ∧
      d.counters = { total := k.total + xs.length * Config.hostTotalReading.perPair
                     uncorrectable := k.uncorrectable
                     corrected := k.corrected + es.countP (fun e => weight e == 1) } := by
  induction xs generalizing s k es with
  | nil =>
    obtain rfl := List.eq_nil_of_length_eq_zero length
    exact ⟨_, rfl, rfl, by simp⟩
  | cons x xs ih =>
    obtain _ | ⟨E0, _ | ⟨E1, es⟩⟩ := es
    all_goals simp only [List.length_cons, List.length_nil] at length
    · omega
    · omega
    · obtain ⟨few0, few1, few⟩ : weight E0 ≤ 1 ∧ weight E1 ≤ 1 ∧ ∀ e ∈ es, weight e ≤ 1 := by
        simpa using few
      have decode : ∀ (v : Nibble) {E : Byte}, weight E ≤ 1 →
          Codec.decode s.consts.HT s.consts.errTab (Codec.encode Constants.rom.G v ^^^ E) =
            (statusOfFlips E, v) := by
        rw [hs]
        exact Codec.decode_flips_le_one
      have pair := decStream_pair s k (List.zipWith (· ^^^ ·) (xs.flatMap Codec.encodeByte) es)
        (decode (x.extractLsb' 0 4) few0) (decode (x.extractLsb' 4 4) few1)
      obtain ⟨d, rest, bytes, counters⟩ := ih (s := s.deliver _) hs _ es (by omega) few
      rw [rest] at pair
      refine ⟨_, pair, ?_, ?_⟩
      · exact congrArg₂ List.cons (append_nibbles x) bytes
      · refine counters.trans ?_
        simp only [Counters.afterPair_flips, List.length_cons, Nat.succ_mul, Counters.mk.injEq,
          List.countP_cons, List.countP_nil]
        exact ⟨by ring, trivial, by ring⟩

/-- Settles O60: ENCSTREAM leaves codewords, and DECSTREAM corrects them. -/
theorem streamRoundTrip : Obligations.StreamRoundTrip := by
  unfold Obligations.StreamRoundTrip
  intro s k xs es hs length few
  obtain ⟨t, only, encoded⟩ := encStream_eq hs xs
  obtain ⟨d, decoded, bytes, counters⟩ := decStream_flipped (only.consts.trans hs) k xs es length few
  exact ⟨_, d, encoded, decoded, bytes, counters⟩

end Sys2Proof.Machine
end
